-- ==== Sys2Proof/Word.lean ====
section
/-! DEFINITION. The widths of the core's values (R9): `u8` bytes, `u16` words and `u12` addresses, all unsigned. -/

namespace Sys2Proof

/-- `u8` (R9): a general register, a timer, a memory byte, the immediate `NN`. -/
abbrev Byte := BitVec 8

/-- `u16` (R9): an instruction word, `I`, `pc`, a stack entry. -/
abbrev Word := BitVec 16

/-- `u12` (R9): the immediate `NNN`. -/
abbrev Addr := BitVec 12

/-- A 4-bit field of an instruction word (R8, R50). -/
abbrev Nibble := BitVec 4

end Sys2Proof
end

