-- ==== Sys2Proof/Config.lean ====
section
/-! DEFINITION. What is fixed when the machine is built: the constants of R5, the configuration record of R6 and R26
with the font of R7, and the free byte that `CXNN` draws (R7). -/

namespace Sys2Proof

/-! ### Fixed parameters (R5) -/

/-- `MEM_SIZE`: bytes of memory. -/
abbrev memSize : Nat := 4096
/-- `ADDR_MAX`: the highest address. -/
abbrev addrMax : Nat := 0xFFF
/-- `NUM_V`: general registers. -/
abbrev numV : Nat := 16
/-- `STACK_DEPTH`: the most return addresses the call stack holds. -/
abbrev stackDepth : Nat := 16
/-- `DISP_W`: columns of the display. -/
abbrev dispW : Nat := 64
/-- `DISP_H`: rows of the display. -/
abbrev dispH : Nat := 32
/-- `NUM_KEYS`: keys of the keypad. -/
abbrev numKeys : Nat := 16
/-- `FONT_BASE`: the address of the first font byte. -/
abbrev fontBase : Nat := 0x050
/-- `GLYPH_BYTES`: bytes of one glyph. -/
abbrev glyphBytes : Nat := 5
/-- Bytes of the whole font, 16 glyphs (R5, R37). -/
abbrev fontSize : Nat := 80
/-- `PROG_BASE`: where `load` puts an image, and the reset `pc`. -/
abbrev progBase : Nat := 0x200
/-- `MAX_IMAGE`: the largest image `load` accepts. -/
abbrev maxImage : Nat := 0xE00
/-- `INSN_BYTES`: bytes of an instruction word. -/
abbrev insnBytes : Nat := 2

/-! ### Configuration (R6, R7, R26) -/

/-- The 80 glyph bytes at `0x050`–`0x09F`, in address order (`FONT`, R7). -/
abbrev Font := Vector Byte fontSize

/-- `P_SHIFT_SRC` (R6): the register `8XY6` and `8XYE` shift. -/
inductive ShiftSrc where
  | vy
  | vx
deriving DecidableEq, Repr

/-- `P_JUMP_REG` (R6): the register `BNNN` adds. -/
inductive JumpReg where
  | v0
  | vx
deriving DecidableEq, Repr

/-- The construction-time record `cfg` (R6, R26), with the parameter `FONT` (R7) beside the three quirk options.
No instruction and no host operation writes it, and reset keeps it (R130). -/
structure Config where
  shiftSrc : ShiftSrc
  jumpReg  : JumpReg
  fx1eVf   : Bool
  font     : Font
deriving DecidableEq, Repr

/-- Glyphs `0` to `7` of R37's default table. PRESUMED (log 3): the spec takes the bytes from general knowledge. -/
def Config.fontLow : List Byte :=
  [0xF0, 0x90, 0x90, 0x90, 0xF0] ++ [0x20, 0x60, 0x20, 0x20, 0x70]
    ++ [0xF0, 0x10, 0xF0, 0x80, 0xF0] ++ [0xF0, 0x10, 0xF0, 0x10, 0xF0]
    ++ [0x90, 0x90, 0xF0, 0x10, 0x10] ++ [0xF0, 0x80, 0xF0, 0x10, 0xF0]
    ++ [0xF0, 0x80, 0xF0, 0x90, 0xF0] ++ [0xF0, 0x10, 0x20, 0x40, 0x40]

/-- Glyphs `8` to `F` of R37's default table. PRESUMED (log 3). -/
def Config.fontHigh : List Byte :=
  [0xF0, 0x90, 0xF0, 0x90, 0xF0] ++ [0xF0, 0x90, 0xF0, 0x10, 0xF0]
    ++ [0xF0, 0x90, 0xF0, 0x90, 0x90] ++ [0xE0, 0x90, 0xE0, 0x90, 0xE0]
    ++ [0xF0, 0x80, 0x80, 0x80, 0xF0] ++ [0xE0, 0x90, 0x90, 0x90, 0xE0]
    ++ [0xF0, 0x80, 0xF0, 0x80, 0xF0] ++ [0xF0, 0x80, 0xF0, 0x80, 0x80]

/-- The default `FONT` (R37). -/
def Config.defaultFont : Font := ⟨(Config.fontLow ++ Config.fontHigh).toArray, by decide⟩

/-- The default configuration (R6): `P_SHIFT_SRC = VY`, `P_JUMP_REG = V0`, `P_FX1E_VF = false`, the default `FONT`. -/
def Config.default : Config where
  shiftSrc := .vy
  jumpReg := .v0
  fx1eVf := false
  font := Config.defaultFont

/-- The byte the `k`-th `CXNN` draws (`rand`, R7 and R94): a free value, on which the spec places no law.
Nothing in Lean can evaluate it, so a claim holds for every sequence of draws (log 2). -/
opaque Config.freeByte : Nat → Byte

end Sys2Proof
end

