-- ==== Sys2Proof/Syntax.lean ====
section
/-! DEFINITION. The 34 instructions of the opcode table (R57) as one inductive, the classification output `kind` of
the decode unit (R49), the six formats (R53) and the assembly syntax (R60). -/

namespace Sys2Proof

/-- A general register `V0`–`VF` by its index (R13). -/
abbrev Reg := Fin numV

/-- A key `0x0`–`0xF` by its number (R24). -/
abbrev Key := Fin numKeys

/-- The register that is also the flag destination (R14). -/
abbrev Reg.vf : Reg := 15

/-- One instruction: one constructor per row of R57, in the table's order. -/
inductive Instr where
  /-- `00E0` CLS (R73) -/
  | cls
  /-- `00EE` RET (R75) -/
  | ret
  /-- `1NNN` JP addr (R76) -/
  | jp (nnn : Addr)
  /-- `2NNN` CALL addr (R77) -/
  | call (nnn : Addr)
  /-- `3XNN` SE Vx, byte (R79) -/
  | seImm (x : Reg) (nn : Byte)
  /-- `4XNN` SNE Vx, byte (R80) -/
  | sneImm (x : Reg) (nn : Byte)
  /-- `5XY0` SE Vx, Vy (R81) -/
  | seReg (x y : Reg)
  /-- `6XNN` LD Vx, byte (R83) -/
  | ldImm (x : Reg) (nn : Byte)
  /-- `7XNN` ADD Vx, byte (R84) -/
  | addImm (x : Reg) (nn : Byte)
  /-- `8XY0` LD Vx, Vy (R85) -/
  | ldReg (x y : Reg)
  /-- `8XY1` OR Vx, Vy (R86) -/
  | orReg (x y : Reg)
  /-- `8XY2` AND Vx, Vy (R87) -/
  | andReg (x y : Reg)
  /-- `8XY3` XOR Vx, Vy (R88) -/
  | xorReg (x y : Reg)
  /-- `8XY4` ADD Vx, Vy (R89) -/
  | addReg (x y : Reg)
  /-- `8XY5` SUB Vx, Vy (R90) -/
  | sub (x y : Reg)
  /-- `8XY6` SHR Vx, Vy (R91) -/
  | shr (x y : Reg)
  /-- `8XY7` SUBN Vx, Vy (R92) -/
  | subn (x y : Reg)
  /-- `8XYE` SHL Vx, Vy (R93) -/
  | shl (x y : Reg)
  /-- `9XY0` SNE Vx, Vy (R82) -/
  | sneReg (x y : Reg)
  /-- `ANNN` LD I, addr (R96) -/
  | ldI (nnn : Addr)
  /-- `BNNN` JP V0, addr (R78) -/
  | jpV0 (nnn : Addr)
  /-- `CXNN` RND Vx, byte (R94) -/
  | rnd (x : Reg) (nn : Byte)
  /-- `DXYN` DRW Vx, Vy, nibble (R74) -/
  | drw (x y : Reg) (n : Nibble)
  /-- `EX9E` SKP Vx (R102) -/
  | skp (x : Reg)
  /-- `EXA1` SKNP Vx (R103) -/
  | sknp (x : Reg)
  /-- `FX07` LD Vx, DT (R104) -/
  | ldVxDT (x : Reg)
  /-- `FX0A` LD Vx, K (R105) -/
  | ldVxK (x : Reg)
  /-- `FX15` LD DT, Vx (R106) -/
  | ldDTVx (x : Reg)
  /-- `FX18` LD ST, Vx (R107) -/
  | ldSTVx (x : Reg)
  /-- `FX1E` ADD I, Vx (R97) -/
  | addIVx (x : Reg)
  /-- `FX29` LD F, Vx (R98) -/
  | ldFVx (x : Reg)
  /-- `FX33` LD B, Vx (R99) -/
  | ldBVx (x : Reg)
  /-- `FX55` LD [I], Vx (R100) -/
  | ldMemVx (x : Reg)
  /-- `FX65` LD Vx, [I] (R101) -/
  | ldVxMem (x : Reg)
deriving DecidableEq, Repr

/-- The decode unit's output `kind` (R49, R57): the 34 instructions, or `UNIMPL` for an illegal word (R58). -/
inductive Kind where
  | CLS | RET | JP | CALL | SE_IMM | SNE_IMM | SE_REG | LD_IMM | ADD_IMM | LD_REG | OR | AND | XOR | ADD_REG | SUB | SHR
  | SUBN | SHL | SNE_REG | LD_I | JP_V0 | RND | DRW | SKP | SKNP | LD_VX_DT | LD_VX_K | LD_DT_VX | LD_ST_VX | ADD_I_VX
  | LD_F_VX | LD_B_VX | LD_MEM_VX | LD_VX_MEM
  | UNIMPL
deriving DecidableEq, Repr

/-- The kind an instruction is of (R57, R64). -/
def Instr.kind : Instr → Kind
  | .cls => .CLS
  | .ret => .RET
  | .jp _ => .JP
  | .call _ => .CALL
  | .seImm _ _ => .SE_IMM
  | .sneImm _ _ => .SNE_IMM
  | .seReg _ _ => .SE_REG
  | .ldImm _ _ => .LD_IMM
  | .addImm _ _ => .ADD_IMM
  | .ldReg _ _ => .LD_REG
  | .orReg _ _ => .OR
  | .andReg _ _ => .AND
  | .xorReg _ _ => .XOR
  | .addReg _ _ => .ADD_REG
  | .sub _ _ => .SUB
  | .shr _ _ => .SHR
  | .subn _ _ => .SUBN
  | .shl _ _ => .SHL
  | .sneReg _ _ => .SNE_REG
  | .ldI _ => .LD_I
  | .jpV0 _ => .JP_V0
  | .rnd _ _ => .RND
  | .drw _ _ _ => .DRW
  | .skp _ => .SKP
  | .sknp _ => .SKNP
  | .ldVxDT _ => .LD_VX_DT
  | .ldVxK _ => .LD_VX_K
  | .ldDTVx _ => .LD_DT_VX
  | .ldSTVx _ => .LD_ST_VX
  | .addIVx _ => .ADD_I_VX
  | .ldFVx _ => .LD_F_VX
  | .ldBVx _ => .LD_B_VX
  | .ldMemVx _ => .LD_MEM_VX
  | .ldVxMem _ => .LD_VX_MEM

/-- The instruction formats (R53). -/
inductive Format where
  | NONE | A12 | XNN | XY | XYN | X
deriving DecidableEq, Repr

/-- The format of a kind (R53). An illegal word has none. -/
def Kind.format : Kind → Option Format
  | .CLS | .RET => some .NONE
  | .JP | .CALL | .LD_I | .JP_V0 => some .A12
  | .SE_IMM | .SNE_IMM | .LD_IMM | .ADD_IMM | .RND => some .XNN
  | .SE_REG | .LD_REG | .OR | .AND | .XOR | .ADD_REG | .SUB | .SHR | .SUBN | .SHL | .SNE_REG => some .XY
  | .DRW => some .XYN
  | .SKP | .SKNP | .LD_VX_DT | .LD_VX_K | .LD_DT_VX | .LD_ST_VX | .ADD_I_VX | .LD_F_VX | .LD_B_VX | .LD_MEM_VX
  | .LD_VX_MEM => some .X
  | .UNIMPL => none

/-! ### Assembly syntax (R60) -/

/-- The mnemonics of R60. -/
inductive Mnemonic where
  | CLS | RET | JP | CALL | SE | SNE | LD | ADD | OR | AND | XOR | SUB | SHR | SUBN | SHL | RND | DRW | SKP | SKNP
deriving DecidableEq, Repr

/-- An operand of the assembly text (R60): a register, a number, or one of the fixed operand names. -/
inductive AsmOperand where
  | reg (r : Reg)
  | byte (nn : Byte)
  | addr (nnn : Addr)
  | nibble (n : Nibble)
  | indexReg
  | delayTimer
  | soundTimer
  | keyWait
  | fontGlyph
  | decimalDigits
  | memAtI
deriving DecidableEq, Repr

/-- A line of assembly: a mnemonic and its operands in the order written (R60). -/
structure AsmLine where
  mnemonic : Mnemonic
  operands : List AsmOperand
deriving DecidableEq, Repr

/-- The assembly line of an instruction (R60). `BNNN` is spelt with `V0` under either `P_JUMP_REG`. -/
def Instr.asm : Instr → AsmLine
  | .cls => ⟨.CLS, []⟩
  | .ret => ⟨.RET, []⟩
  | .jp nnn => ⟨.JP, [.addr nnn]⟩
  | .call nnn => ⟨.CALL, [.addr nnn]⟩
  | .seImm x nn => ⟨.SE, [.reg x, .byte nn]⟩
  | .sneImm x nn => ⟨.SNE, [.reg x, .byte nn]⟩
  | .seReg x y => ⟨.SE, [.reg x, .reg y]⟩
  | .ldImm x nn => ⟨.LD, [.reg x, .byte nn]⟩
  | .addImm x nn => ⟨.ADD, [.reg x, .byte nn]⟩
  | .ldReg x y => ⟨.LD, [.reg x, .reg y]⟩
  | .orReg x y => ⟨.OR, [.reg x, .reg y]⟩
  | .andReg x y => ⟨.AND, [.reg x, .reg y]⟩
  | .xorReg x y => ⟨.XOR, [.reg x, .reg y]⟩
  | .addReg x y => ⟨.ADD, [.reg x, .reg y]⟩
  | .sub x y => ⟨.SUB, [.reg x, .reg y]⟩
  | .shr x y => ⟨.SHR, [.reg x, .reg y]⟩
  | .subn x y => ⟨.SUBN, [.reg x, .reg y]⟩
  | .shl x y => ⟨.SHL, [.reg x, .reg y]⟩
  | .sneReg x y => ⟨.SNE, [.reg x, .reg y]⟩
  | .ldI nnn => ⟨.LD, [.indexReg, .addr nnn]⟩
  | .jpV0 nnn => ⟨.JP, [.reg 0, .addr nnn]⟩
  | .rnd x nn => ⟨.RND, [.reg x, .byte nn]⟩
  | .drw x y n => ⟨.DRW, [.reg x, .reg y, .nibble n]⟩
  | .skp x => ⟨.SKP, [.reg x]⟩
  | .sknp x => ⟨.SKNP, [.reg x]⟩
  | .ldVxDT x => ⟨.LD, [.reg x, .delayTimer]⟩
  | .ldVxK x => ⟨.LD, [.reg x, .keyWait]⟩
  | .ldDTVx x => ⟨.LD, [.delayTimer, .reg x]⟩
  | .ldSTVx x => ⟨.LD, [.soundTimer, .reg x]⟩
  | .addIVx x => ⟨.ADD, [.indexReg, .reg x]⟩
  | .ldFVx x => ⟨.LD, [.fontGlyph, .reg x]⟩
  | .ldBVx x => ⟨.LD, [.decimalDigits, .reg x]⟩
  | .ldMemVx x => ⟨.LD, [.memAtI, .reg x]⟩
  | .ldVxMem x => ⟨.LD, [.reg x, .memAtI]⟩

end Sys2Proof
end

