-- ==== Sys2Proof/WellFormed.lean ====
section
/-! DEFINITION. What a well-formed instruction, program image and key number are. An `Instr` holds each operand in a
type of exactly the field's width, so every `Instr` is well formed and every legal word means its row's instruction
(R59). The check bites on operands given as plain numbers, as an assembler has them (R60), and on what the host hands
to the core: an image (R131) and a key number (R119). -/

namespace Sys2Proof

/-- An instruction with its operands as plain numbers, before any width is enforced (R60: `byte` is 0..255, `addr`
0..4095, `nibble` 0..15, a register index 0..15). A format reads only its own fields. -/
structure RawInstr where
  kind : Kind
  x    : Nat := 0
  y    : Nat := 0
  n    : Nat := 0
  nn   : Nat := 0
  nnn  : Nat := 0
deriving DecidableEq, Repr

/-- A register index is in `0x0`–`0xF` (R13). -/
def regIndexOk (i : Nat) : Bool := decide (i < numV)

/-- A key number is in `0x0`–`0xF` (R119). -/
def keyIndexOk (k : Nat) : Bool := decide (k < numKeys)

/-- An image fits the space from `0x200` to `0xFFF` (R131). -/
def imageOk (p : List Byte) : Bool := decide (p.length ≤ maxImage)

/-- The operands the kind's format uses are within the field widths (R53, R60). `UNIMPL` is no instruction. -/
def RawInstr.wellFormed (i : RawInstr) : Bool :=
  match i.kind.format with
  | some .NONE => true
  | some .A12 => decide (i.nnn ≤ 0xFFF)
  | some .XNN => regIndexOk i.x && decide (i.nn ≤ 0xFF)
  | some .XY => regIndexOk i.x && regIndexOk i.y
  | some .XYN => regIndexOk i.x && regIndexOk i.y && decide (i.n ≤ 0xF)
  | some .X => regIndexOk i.x
  | none => false

/-- An instruction's operands as plain numbers. -/
def Instr.raw : Instr → RawInstr
  | .cls => { kind := .CLS }
  | .ret => { kind := .RET }
  | .jp nnn => { kind := .JP, nnn := nnn.toNat }
  | .call nnn => { kind := .CALL, nnn := nnn.toNat }
  | .seImm x nn => { kind := .SE_IMM, x := x.val, nn := nn.toNat }
  | .sneImm x nn => { kind := .SNE_IMM, x := x.val, nn := nn.toNat }
  | .seReg x y => { kind := .SE_REG, x := x.val, y := y.val }
  | .ldImm x nn => { kind := .LD_IMM, x := x.val, nn := nn.toNat }
  | .addImm x nn => { kind := .ADD_IMM, x := x.val, nn := nn.toNat }
  | .ldReg x y => { kind := .LD_REG, x := x.val, y := y.val }
  | .orReg x y => { kind := .OR, x := x.val, y := y.val }
  | .andReg x y => { kind := .AND, x := x.val, y := y.val }
  | .xorReg x y => { kind := .XOR, x := x.val, y := y.val }
  | .addReg x y => { kind := .ADD_REG, x := x.val, y := y.val }
  | .sub x y => { kind := .SUB, x := x.val, y := y.val }
  | .shr x y => { kind := .SHR, x := x.val, y := y.val }
  | .subn x y => { kind := .SUBN, x := x.val, y := y.val }
  | .shl x y => { kind := .SHL, x := x.val, y := y.val }
  | .sneReg x y => { kind := .SNE_REG, x := x.val, y := y.val }
  | .ldI nnn => { kind := .LD_I, nnn := nnn.toNat }
  | .jpV0 nnn => { kind := .JP_V0, nnn := nnn.toNat }
  | .rnd x nn => { kind := .RND, x := x.val, nn := nn.toNat }
  | .drw x y n => { kind := .DRW, x := x.val, y := y.val, n := n.toNat }
  | .skp x => { kind := .SKP, x := x.val }
  | .sknp x => { kind := .SKNP, x := x.val }
  | .ldVxDT x => { kind := .LD_VX_DT, x := x.val }
  | .ldVxK x => { kind := .LD_VX_K, x := x.val }
  | .ldDTVx x => { kind := .LD_DT_VX, x := x.val }
  | .ldSTVx x => { kind := .LD_ST_VX, x := x.val }
  | .addIVx x => { kind := .ADD_I_VX, x := x.val }
  | .ldFVx x => { kind := .LD_F_VX, x := x.val }
  | .ldBVx x => { kind := .LD_B_VX, x := x.val }
  | .ldMemVx x => { kind := .LD_MEM_VX, x := x.val }
  | .ldVxMem x => { kind := .LD_VX_MEM, x := x.val }

/-- A well-formed instruction: every operand within its field (R53, R59). -/
def Instr.wellFormed (i : Instr) : Bool := i.raw.wellFormed

end Sys2Proof
end

