-- ==== Sys2Proof/Decode.lean ====
section
/-! DEFINITION. `chip8_decode_unit` (R49): the fields (R50), the classification by multi-level dispatch (R55, R56)
and by the table of match and mask (R57), the decoder on words and on bytes, and the encoder. -/

namespace Sys2Proof

/-! ### Fields -/

/-- The field outputs of the decode unit (R49). Every field is computed for every word (R50). -/
structure Fields where
  nib1 : Nibble
  x    : Nibble
  y    : Nibble
  n    : Nibble
  nn   : Byte
  nnn  : Addr
deriving DecidableEq, Repr

/-- Field extraction (R50). -/
def fields (op : Word) : Fields where
  nib1 := op.extractLsb' 12 4
  x := op.extractLsb' 8 4
  y := op.extractLsb' 4 4
  n := op.extractLsb' 0 4
  nn := op.extractLsb' 0 8
  nnn := op.extractLsb' 0 12

/-- The register a 4-bit field names (R13, R54). -/
def Fields.regX (f : Fields) : Reg := f.x.toFin

/-- The register the `Y` field names (R54). -/
def Fields.regY (f : Fields) : Reg := f.y.toFin

/-! ### Classification -/

/-- The `nib1 = 0` family (R56): dispatch on all of `opcode[11:0]`. -/
def classify0 (nnn : Addr) : Kind :=
  if nnn = 0x0E0 then .CLS else if nnn = 0x0EE then .RET else .UNIMPL

/-- The `nib1 = 8` family (R56): dispatch on `n`. -/
def classify8 (n : Nibble) : Kind :=
  match n.toNat with
  | 0x0 => .LD_REG
  | 0x1 => .OR
  | 0x2 => .AND
  | 0x3 => .XOR
  | 0x4 => .ADD_REG
  | 0x5 => .SUB
  | 0x6 => .SHR
  | 0x7 => .SUBN
  | 0xE => .SHL
  | _ => .UNIMPL

/-- The `nib1 = E` family (R56): dispatch on `nn`. -/
def classifyE (nn : Byte) : Kind :=
  if nn = 0x9E then .SKP else if nn = 0xA1 then .SKNP else .UNIMPL

/-- The `nib1 = F` family (R56): dispatch on `nn`. -/
def classifyF (nn : Byte) : Kind :=
  if nn = 0x07 then .LD_VX_DT
  else if nn = 0x0A then .LD_VX_K
  else if nn = 0x15 then .LD_DT_VX
  else if nn = 0x18 then .LD_ST_VX
  else if nn = 0x1E then .ADD_I_VX
  else if nn = 0x29 then .LD_F_VX
  else if nn = 0x33 then .LD_B_VX
  else if nn = 0x55 then .LD_MEM_VX
  else if nn = 0x65 then .LD_VX_MEM
  else .UNIMPL

/-- First-level dispatch on the leading nibble (R55), with the second level of R56. -/
def classifyFields (f : Fields) : Kind :=
  match f.nib1.toNat with
  | 0x0 => classify0 f.nnn
  | 0x1 => .JP
  | 0x2 => .CALL
  | 0x3 => .SE_IMM
  | 0x4 => .SNE_IMM
  | 0x5 => if f.n = 0 then .SE_REG else .UNIMPL
  | 0x6 => .LD_IMM
  | 0x7 => .ADD_IMM
  | 0x8 => classify8 f.n
  | 0x9 => if f.n = 0 then .SNE_REG else .UNIMPL
  | 0xA => .LD_I
  | 0xB => .JP_V0
  | 0xC => .RND
  | 0xD => .DRW
  | 0xE => classifyE f.nn
  | 0xF => classifyF f.nn
  | _ => .UNIMPL

/-- The output `kind` of the decode unit for a word (R49): total and stateless (R51). -/
def classify (op : Word) : Kind := classifyFields (fields op)

/-- A row of R57's table: a word is of the kind when `(opcode & mask) = pattern`. -/
structure Row where
  kind    : Kind
  pattern : Word
  mask    : Word
deriving DecidableEq, Repr

/-- R57's rows with a one-nibble opcode or a fixed word. -/
def rowsPlain : List Row :=
  [⟨.CLS, 0x00E0, 0xFFFF⟩, ⟨.RET, 0x00EE, 0xFFFF⟩, ⟨.JP, 0x1000, 0xF000⟩, ⟨.CALL, 0x2000, 0xF000⟩]
    ++ [⟨.SE_IMM, 0x3000, 0xF000⟩, ⟨.SNE_IMM, 0x4000, 0xF000⟩, ⟨.SE_REG, 0x5000, 0xF00F⟩]
    ++ [⟨.LD_IMM, 0x6000, 0xF000⟩, ⟨.ADD_IMM, 0x7000, 0xF000⟩]

/-- R57's rows of the `8XYn` family. -/
def rowsAlu : List Row :=
  [⟨.LD_REG, 0x8000, 0xF00F⟩, ⟨.OR, 0x8001, 0xF00F⟩, ⟨.AND, 0x8002, 0xF00F⟩, ⟨.XOR, 0x8003, 0xF00F⟩]
    ++ [⟨.ADD_REG, 0x8004, 0xF00F⟩, ⟨.SUB, 0x8005, 0xF00F⟩, ⟨.SHR, 0x8006, 0xF00F⟩]
    ++ [⟨.SUBN, 0x8007, 0xF00F⟩, ⟨.SHL, 0x800E, 0xF00F⟩]

/-- R57's rows from `9XY0` on. -/
def rowsHigh : List Row :=
  [⟨.SNE_REG, 0x9000, 0xF00F⟩, ⟨.LD_I, 0xA000, 0xF000⟩, ⟨.JP_V0, 0xB000, 0xF000⟩, ⟨.RND, 0xC000, 0xF000⟩]
    ++ [⟨.DRW, 0xD000, 0xF000⟩, ⟨.SKP, 0xE09E, 0xF0FF⟩, ⟨.SKNP, 0xE0A1, 0xF0FF⟩, ⟨.LD_VX_DT, 0xF007, 0xF0FF⟩]
    ++ [⟨.LD_VX_K, 0xF00A, 0xF0FF⟩, ⟨.LD_DT_VX, 0xF015, 0xF0FF⟩, ⟨.LD_ST_VX, 0xF018, 0xF0FF⟩]
    ++ [⟨.ADD_I_VX, 0xF01E, 0xF0FF⟩, ⟨.LD_F_VX, 0xF029, 0xF0FF⟩, ⟨.LD_B_VX, 0xF033, 0xF0FF⟩]
    ++ [⟨.LD_MEM_VX, 0xF055, 0xF0FF⟩, ⟨.LD_VX_MEM, 0xF065, 0xF0FF⟩]

/-- The 34 rows of R57, in its order. -/
def opcodeRows : List Row := rowsPlain ++ rowsAlu ++ rowsHigh

/-- A word matches a row (R57). -/
def Row.matches (r : Row) (op : Word) : Bool := op &&& r.mask = r.pattern

/-- The kind R57's table gives a word: that of the row it matches, `UNIMPL` where none does. -/
def tableKind (op : Word) : Kind :=
  match opcodeRows.find? (·.matches op) with
  | some r => r.kind
  | none => .UNIMPL

/-! ### Decoder -/

/-- The instruction a kind and the fields make (R53, R54). `UNIMPL` is no instruction. -/
def Kind.build (k : Kind) (x y : Reg) (n : Nibble) (nn : Byte) (nnn : Addr) : Option Instr :=
  match k with
  | .CLS => some .cls
  | .RET => some .ret
  | .JP => some (.jp nnn)
  | .CALL => some (.call nnn)
  | .SE_IMM => some (.seImm x nn)
  | .SNE_IMM => some (.sneImm x nn)
  | .SE_REG => some (.seReg x y)
  | .LD_IMM => some (.ldImm x nn)
  | .ADD_IMM => some (.addImm x nn)
  | .LD_REG => some (.ldReg x y)
  | .OR => some (.orReg x y)
  | .AND => some (.andReg x y)
  | .XOR => some (.xorReg x y)
  | .ADD_REG => some (.addReg x y)
  | .SUB => some (.sub x y)
  | .SHR => some (.shr x y)
  | .SUBN => some (.subn x y)
  | .SHL => some (.shl x y)
  | .SNE_REG => some (.sneReg x y)
  | .LD_I => some (.ldI nnn)
  | .JP_V0 => some (.jpV0 nnn)
  | .RND => some (.rnd x nn)
  | .DRW => some (.drw x y n)
  | .SKP => some (.skp x)
  | .SKNP => some (.sknp x)
  | .LD_VX_DT => some (.ldVxDT x)
  | .LD_VX_K => some (.ldVxK x)
  | .LD_DT_VX => some (.ldDTVx x)
  | .LD_ST_VX => some (.ldSTVx x)
  | .ADD_I_VX => some (.addIVx x)
  | .LD_F_VX => some (.ldFVx x)
  | .LD_B_VX => some (.ldBVx x)
  | .LD_MEM_VX => some (.ldMemVx x)
  | .LD_VX_MEM => some (.ldVxMem x)
  | .UNIMPL => none

/-- The instruction a word is, or none for an illegal word (R51, R57, R58). -/
def decodeWord (op : Word) : Option Instr :=
  let f := fields op
  (classifyFields f).build f.regX f.regY f.n f.nn f.nnn

/-- Why the decoder on bytes gives no instruction. -/
inductive DecodeError where
  /-- Fewer than the two bytes of an instruction (R52). -/
  | truncated
  /-- The word matches no row of R57 (R58): executing it raises `UnimplementedOpcode` (R63). -/
  | unimpl (op : Word)
deriving DecidableEq, Repr

/-- The decoder on a list of bytes: it consumes exactly 2 of them (R52), the high byte first (R39), and returns the
instruction with the rest of the list, or the reason by name. -/
def decode : List Byte → Except DecodeError (Instr × List Byte)
  | hi :: lo :: rest =>
    match decodeWord (hi ++ lo) with
    | some i => .ok (i, rest)
    | none => .error (.unimpl (hi ++ lo))
  | _ => .error .truncated

/-- The instruction of raw operands, refused where an operand is outside its field (R60). -/
def RawInstr.instr? (i : RawInstr) : Option Instr :=
  if i.wellFormed then
    i.kind.build (Fin.ofNat numV i.x) (Fin.ofNat numV i.y) (.ofNat 4 i.n) (.ofNat 8 i.nn) (.ofNat 12 i.nnn)
  else none

/-! ### Encoder -/

/-- The 4-bit field that names a register. -/
def regField (r : Reg) : Nibble := BitVec.ofFin r

/-- Format `A12` (R53). -/
def wordA12 (op : Nibble) (nnn : Addr) : Word := op ++ nnn

/-- Format `XNN` (R53). -/
def wordXNN (op : Nibble) (x : Reg) (nn : Byte) : Word := op ++ regField x ++ nn

/-- Formats `XY` and `XYN` (R53): the last nibble is a function code or the field `N`. -/
def wordXYN (op : Nibble) (x y : Reg) (n : Nibble) : Word := op ++ regField x ++ regField y ++ n

/-- Format `X` (R53): the low byte is a function code. -/
def wordX (op : Nibble) (x : Reg) (function : Byte) : Word := op ++ regField x ++ function

/-- The word of an instruction, from the encodings of R53 and R57. -/
def encode : Instr → Word
  | .cls => 0x00E0
  | .ret => 0x00EE
  | .jp nnn => wordA12 0x1 nnn
  | .call nnn => wordA12 0x2 nnn
  | .seImm x nn => wordXNN 0x3 x nn
  | .sneImm x nn => wordXNN 0x4 x nn
  | .seReg x y => wordXYN 0x5 x y 0x0
  | .ldImm x nn => wordXNN 0x6 x nn
  | .addImm x nn => wordXNN 0x7 x nn
  | .ldReg x y => wordXYN 0x8 x y 0x0
  | .orReg x y => wordXYN 0x8 x y 0x1
  | .andReg x y => wordXYN 0x8 x y 0x2
  | .xorReg x y => wordXYN 0x8 x y 0x3
  | .addReg x y => wordXYN 0x8 x y 0x4
  | .sub x y => wordXYN 0x8 x y 0x5
  | .shr x y => wordXYN 0x8 x y 0x6
  | .subn x y => wordXYN 0x8 x y 0x7
  | .shl x y => wordXYN 0x8 x y 0xE
  | .sneReg x y => wordXYN 0x9 x y 0x0
  | .ldI nnn => wordA12 0xA nnn
  | .jpV0 nnn => wordA12 0xB nnn
  | .rnd x nn => wordXNN 0xC x nn
  | .drw x y n => wordXYN 0xD x y n
  | .skp x => wordX 0xE x 0x9E
  | .sknp x => wordX 0xE x 0xA1
  | .ldVxDT x => wordX 0xF x 0x07
  | .ldVxK x => wordX 0xF x 0x0A
  | .ldDTVx x => wordX 0xF x 0x15
  | .ldSTVx x => wordX 0xF x 0x18
  | .addIVx x => wordX 0xF x 0x1E
  | .ldFVx x => wordX 0xF x 0x29
  | .ldBVx x => wordX 0xF x 0x33
  | .ldMemVx x => wordX 0xF x 0x55
  | .ldVxMem x => wordX 0xF x 0x65

/-- A word as it stands in memory, high byte first (R39). -/
def wordBytes (op : Word) : List Byte := [op.extractLsb' 8 8, op.extractLsb' 0 8]

/-- An instruction as it stands in memory. -/
def encodeBytes (i : Instr) : List Byte := wordBytes (encode i)

/-- The word the opcode table's numbering makes of the `nbits` bits of `w`: every instruction is one 16-bit word
(R52), so its bit 0 is the word's bit 0, and bits above `nbits` are 0. -/
def tableWord (nbits w : Nat) : Word := BitVec.ofNat 16 (w % 2 ^ nbits)

/-- What the decoder reads from an instruction whose bits are `w`, numbered as `opcode_table.json` numbers them. -/
def decodeTableWord (nbits w : Nat) : Option Instr :=
  match decode (wordBytes (tableWord nbits w)) with
  | .ok (i, _) => some i
  | .error _ => none

end Sys2Proof
end

