-- ==== Sys2Proof/Machine/State.lean ====
section
/-! DEFINITION. The machine's state as plain data: every field of R29's table, the configuration record as a field no
transaction writes (log 1), the model's own draw counter (log 2), and the reasons a step can stop. -/

namespace Sys2Proof.Machine

/-- Memory (R33) as the list of the bytes that differ from the reset contents of R36, at strictly rising addresses. -/
abbrev Memory := List Host.Cell

/-- The general register file `V0`–`VF` (R13). -/
abbrev RegFile := Vector Byte numV

/-- The display (R23): row `y` holds the 64 pixels of that row, `true` for on. -/
abbrev Display := Vector (Vector Bool dispW) dispH

/-- Why a step or a `load` ends with an error (R108). All five are the spec's own outcomes and change no state (R68),
so stopping with them is safe: the host that goes on meets the state it had. -/
inductive Fault where
  /-- Code 1, "register/address index out of the architectural range": raised by fetch, by the checked memory and
  register operations, by a key number above `0xF` and by the new-`pc` check (R109). Safe. -/
  | invalidOperand
  /-- Code 2, "call depth > 16": raised by `2NNN` (R77). Safe. -/
  | stackOverflow
  /-- Code 3, "return with empty stack": raised by `00EE` (R75). Safe. -/
  | stackUnderflow
  /-- Code 4, "program exceeds available space": raised by `load` alone (R131). Safe. -/
  | imageTooLarge
  /-- Code 5, "a 16-bit pattern matching none of the defined instructions": raised by the step of an illegal word
  (R63). Safe. -/
  | unimplementedOpcode
deriving DecidableEq, Repr

/-- Why a step has no meaning. No step of this model ends so: every instruction has its meaning. -/
inductive Refusal where
  /-- An arm of `exec` whose instruction has no meaning yet, by its mnemonic in the opcode table. No arm is left so.
  Safe. -/
  | notModelled (mnemonic : String)
deriving DecidableEq, Repr

/-- The complete state of one core. -/
structure State where
  /-- `mem[0x000]`–`mem[0xFFF]` (R33) -/
  mem    : Memory
  /-- `V0`–`VF` (R13) -/
  V      : RegFile
  /-- The index register (R17) -/
  I      : Word
  /-- The program counter (R18) -/
  pc     : Word
  /-- The call stack, top first (R19) -/
  stack  : List Word
  /-- The delay timer (R20) -/
  DT     : Byte
  /-- The sound timer (R21) -/
  ST     : Byte
  /-- The display (R23) -/
  disp   : Display
  /-- The key state (R24) -/
  key    : Vector Bool numKeys
  /-- An `FX0A` is waiting (R25) -/
  kwait  : Bool
  /-- The first key with an edge since the wait began (R25) -/
  klatch : Option Key
  /-- The configuration record (R26): fixed when the machine is built, written by nothing -/
  cfg    : Config
  /-- The model's own: how many bytes `CXNN` has drawn (log 2) -/
  draws  : Nat
deriving DecidableEq, Repr

/-- The state right after `reset()` (R29, R128) in the default configuration (R6). Memory lists nothing, since the
reset contents of R36 are what an unlisted address reads as. -/
def State.reset : State where
  mem := []
  V := Vector.replicate numV 0
  I := 0
  pc := 0x200
  stack := []
  DT := 0
  ST := 0
  disp := Vector.replicate dispH (Vector.replicate dispW false)
  key := Vector.replicate numKeys false
  kwait := false
  klatch := none
  cfg := Config.default
  draws := 0

/-- What one instruction or one step answers. -/
abbrev Result := Host.Outcome State Fault Refusal

end Sys2Proof.Machine
end

