-- ==== Sys2Proof/Machine/Ops.lean ====
section
/-! DEFINITION. The named operations of R10 over memory, registers, call stack, display and `pc`, and the one
operation that raises an error. -/

namespace Sys2Proof.Machine

/-! ### Raising an error (R10, R68, R113)

An error is the core's only exception. It saves nothing, uses no vector and changes no mode or state: the step ends with
the error kind and the state stays as it was. The core has no return from it (R114). -/

/-- `raise E` (R10): the step ends with outcome `Err(E)`, and every write made before it in the pseudocode is void
(R68). -/
def raise (e : Fault) : Result := .fault e

/-- Goes on with the value of a checked operation, or raises its error. -/
def orRaise {α : Type} (r : Except Fault α) (k : α → Result) : Result :=
  match r with
  | .ok a => k a
  | .error e => raise e

/-! ### Plain updates -/

/-- `mem <- m` -/
def State.setMem (s : State) (m : Memory) : State := { s with mem := m }

/-- `V[x] <- b` (R10) -/
def State.setReg (s : State) (x : Reg) (b : Byte) : State := { s with V := s.V.set x.val b x.isLt }

/-- `I <- v` (R10) -/
def State.setI (s : State) (v : Word) : State := { s with I := v }

/-- `pc` as a field, with no check. -/
def State.setPc (s : State) (v : Word) : State := { s with pc := v }

/-- The call stack as a field, with no check. -/
def State.setStack (s : State) (st : List Word) : State := { s with stack := st }

/-- `DT <- b` (R20) -/
def State.setDT (s : State) (b : Byte) : State := { s with DT := b }

/-- `ST <- b` (R21) -/
def State.setST (s : State) (b : Byte) : State := { s with ST := b }

/-- `disp <- d` (R23) -/
def State.setDisp (s : State) (d : Display) : State := { s with disp := d }

/-- `key[k] <- p` (R24) -/
def State.setKey (s : State) (k : Key) (p : Bool) : State := { s with key := s.key.set k.val p k.isLt }

/-- `kwait <- w` and `klatch <- l` (R25) -/
def State.setWait (s : State) (w : Bool) (l : Option Key) : State := { s with kwait := w, klatch := l }

/-- One byte of `rand` is used up (R7; the model's own counter). -/
def State.countDraw (s : State) : State := { s with draws := s.draws + 1 }

/-! ### Registers -/

/-- `V[x]` (R10). No register is hard-wired, banked or windowed (R15). -/
def State.reg (s : State) (x : Reg) : Byte := s.V.get x

/-- `key[k]` (R10) -/
def State.keyDown (s : State) (k : Key) : Bool := s.key.get k

/-- The register a number names: an index beyond `0xF` raises `InvalidOperand` (R13, R35). -/
def regIndex (i : Nat) : Except Fault Reg := if h : i < numV then .ok ⟨i, h⟩ else .error .invalidOperand

/-- `V[k], V[k+1], … <- bs`, in that order, each index checked (R13). -/
def writeRegs : Nat → List Byte → State → Except Fault State
  | _, [], s => .ok s
  | k, b :: bs, s =>
    match regIndex k with
    | .ok x => writeRegs (k + 1) bs (s.setReg x b)
    | .error e => .error e

/-- `V[k], …, V[k+n-1]`, each index checked (R13). -/
def readRegs : Nat → Nat → State → Except Fault (List Byte)
  | _, 0, _ => .ok []
  | k, n + 1, s =>
    match regIndex k, readRegs (k + 1) n s with
    | .ok x, .ok bs => .ok (s.reg x :: bs)
    | .error e, _ => .error e
    | _, .error e => .error e

/-! ### Memory (R33–R43) -/

/-- What an address that memory does not list reads as: the reset contents of R36 with the default font (R37, log 3),
zero elsewhere. -/
def Memory.initial (a : Nat) : Byte :=
  if fontBase ≤ a ∧ a < fontBase + fontSize then (Config.fontLow ++ Config.fontHigh).getD (a - fontBase) 0 else 0

/-- `mem[a]`, with no check. -/
def Memory.read : Memory → Nat → Byte
  | [], a => Memory.initial a
  | c :: m, a => if a = c.1 then c.2 else Memory.read m a

/-- A cell in front of a list, unless it holds what an unlisted address reads as. -/
def Memory.consCell (a : Nat) (b : Byte) (m : Memory) : Memory := if b = Memory.initial a then m else (a, b) :: m

/-- `mem[a] <- b`, with no check. It keeps the canonical form. -/
def Memory.write : Memory → Nat → Byte → Memory
  | [], a, b => Memory.consCell a b []
  | c :: m, a, b =>
    if a < c.1 then Memory.consCell a b (c :: m)
    else if a = c.1 then Memory.consCell a b m
    else c :: Memory.write m a b

/-- `mem[a], mem[a+1], … <- bs`, in that order, with no check. -/
def Memory.writeList : Memory → Nat → List Byte → Memory
  | m, _, [] => m
  | m, a, b :: bs => Memory.writeList (m.write a b) (a + 1) bs

/-- The cells from address `lo` up are in canonical form: rising addresses within `0x000`–`0xFFF` (R33), and no cell
equal to what its address reads as unlisted. -/
def Memory.wfFrom : Nat → Memory → Bool
  | _, [] => true
  | lo, c :: m => decide (lo ≤ c.1) && decide (c.1 ≤ addrMax) && decide (c.2 ≠ Memory.initial c.1) && Memory.wfFrom (c.1 + 1) m

/-- The canonical form. -/
def Memory.wf (m : Memory) : Bool := Memory.wfFrom 0 m

/-- `mem[a]` of a state, with no check. -/
def State.byteAt (s : State) (a : Nat) : Byte := s.mem.read a

/-- `MemRead(addr, 1)` (R35). -/
def memRead (addr : Nat) (s : State) : Except Fault Byte :=
  if addr > addrMax then .error .invalidOperand else .ok (s.byteAt addr)

/-- `MemWrite(addr, 1, v)` (R35). There is no write protection at run time (R43). -/
def memWrite (addr : Nat) (v : Byte) (s : State) : Except Fault State :=
  if addr > addrMax then .error .invalidOperand else .ok (s.setMem (s.mem.write addr v))

/-- `MemRead(addr + k, 1)` for `k` in `0..n-1` (R34): the address is exact, with no wrap. With `n = 0` no byte is read
and no check is made. -/
def memReadList : Nat → Nat → State → Except Fault (List Byte)
  | _, 0, _ => .ok []
  | addr, n + 1, s =>
    match memRead addr s, memReadList (addr + 1) n s with
    | .ok b, .ok bs => .ok (b :: bs)
    | .error e, _ => .error e
    | _, .error e => .error e

/-- `MemWrite(addr + k, 1, bs[k])` in order of `k` (R34). An address out of range voids them all (R35). -/
def memWriteList : Nat → List Byte → State → Except Fault State
  | _, [], s => .ok s
  | addr, b :: bs, s =>
    match memWrite addr b s with
    | .ok t => memWriteList (addr + 1) bs t
    | .error e => .error e

/-- `Fetch(a)` at `a = pc` (R62): the two bytes at `a` and `a + 1`, the high byte first (R39), at any alignment
(R40). -/
def fetch (s : State) : Except Fault Word :=
  match memRead s.pc.toNat s, memRead (s.pc.toNat + 1) s with
  | .ok hi, .ok lo => .ok (hi ++ lo)
  | .error e, _ => .error e
  | _, .error e => .error e

/-- The state with a word in the two bytes the next fetch reads, where both exist. -/
def placeWord (op : Word) (s : State) : State :=
  if s.pc.toNat + 1 ≤ addrMax then s.setMem (s.mem.writeList s.pc.toNat (wordBytes op)) else s

/-! ### Program counter (R67) -/

/-- `jump(t)` (R67): `pc <- t`, or `InvalidOperand` where `t` is above `0xFFF`. -/
def jumpTo (t : Nat) (s : State) : Result :=
  if t > addrMax then raise .invalidOperand else .next (s.setPc (BitVec.ofNat 16 t))

/-- `next` (R67): `pc <- a + 2`. No instruction writes `pc` before its `next`, so `s.pc` is still `a`. -/
def advance (s : State) : Result := jumpTo (s.pc.toNat + insnBytes) s

/-- `skip(c)` (R67): `pc <- (c ? a + 4 : a + 2)`. -/
def skipIf (c : Bool) (s : State) : Result := jumpTo (s.pc.toNat + (if c then 2 * insnBytes else insnBytes)) s

/-- `hold` (R67): `pc <- a`. -/
def hold (s : State) : Result := .next s

/-! ### Call stack (R19) -/

/-- `Push(v)` (R19): requires `depth < 16`. -/
def push (v : Word) (s : State) : Except Fault State :=
  if s.stack.length < stackDepth then .ok (s.setStack (v :: s.stack)) else .error .stackOverflow

/-- `Pop()` (R19): requires `depth > 0`; the top, and the state without it. -/
def pop (s : State) : Except Fault (Word × State) :=
  match s.stack with
  | [] => .error .stackUnderflow
  | t :: rest => .ok (t, s.setStack rest)

/-! ### Display (R23, R74) -/

/-- `disp[py][px]` -/
def Display.pixel (d : Display) (py : Fin dispH) (px : Fin dispW) : Bool := (d.get py).get px

/-- `disp[py][px] <- p` -/
def Display.setPixel (d : Display) (py : Fin dispH) (px : Fin dispW) (p : Bool) : Display :=
  d.set py.val ((d.get py).set px.val p px.isLt) py.isLt

/-- The display with every pixel off. -/
def Display.clear : Display := Vector.replicate dispH (Vector.replicate dispW false)

/-- A draw in progress: the display, and whether a pixel was erased (`hit`). -/
structure Canvas where
  disp : Display
  hit  : Bool
deriving DecidableEq, Repr

/-- Column `c` of sprite row `r` (R74): bit `7 - c` of the row byte, so that bit 7 is the leftmost pixel. Each pixel
wraps on its own at 64 columns and 32 rows. `old` is the display before the instruction. The bit order and the row
order are PRESUMED (log 8). -/
def drawBit (old : Display) (x0 y0 r : Nat) (row : Byte) (cv : Canvas) (c : Nat) : Canvas :=
  if row.getLsbD (7 - c) then
    let px := Fin.ofNat dispW (x0 + c)
    let py := Fin.ofNat dispH (y0 + r)
    { disp := Display.setPixel cv.disp py px (Display.pixel old py px ^^ true)
      hit := cv.hit || Display.pixel old py px }
  else cv

/-- Sprite row `r` (R74): its eight columns. -/
def drawRow (old : Display) (x0 y0 r : Nat) (row : Byte) (cv : Canvas) : Canvas :=
  (List.range 8).foldl (drawBit old x0 y0 r row) cv

/-- Sprite rows `r`, `r + 1`, … (R74). -/
def drawRows (old : Display) (x0 y0 : Nat) : Nat → List Byte → Canvas → Canvas
  | _, [], cv => cv
  | r, row :: rows, cv => drawRows old x0 y0 (r + 1) rows (drawRow old x0 y0 r row cv)

/-- A whole sprite drawn on a display at column `x0` and row `y0` (R74). -/
def drawSprite (rows : List Byte) (x0 y0 : Nat) (old : Display) : Canvas :=
  drawRows old x0 y0 0 rows { disp := old, hit := false }

end Sys2Proof.Machine
end

