-- ==== Sys2Proof/Machine/Operands.lean ====
section
/-! DEFINITION. The operand forms: registers selected by the configuration, index addresses, immediates, coordinates and
key numbers. -/

namespace Sys2Proof.Machine

/-- The source of `8XY6` and `8XYE` (R91, R93): `V[Y]`, or `V[X]` when `P_SHIFT_SRC = VX`. -/
def shiftSource (x y : Reg) (s : State) : Byte :=
  match s.cfg.shiftSrc with
  | .vy => s.reg y
  | .vx => s.reg x

/-- The register `BNNN` adds (R78): `V0`, or the one `nnn[11:8]` names when `P_JUMP_REG = VX`. -/
def jumpOffsetReg (nnn : Addr) (s : State) : Reg :=
  match s.cfg.jumpReg with
  | .v0 => 0
  | .vx => (nnn.extractLsb' 8 4).toFin

/-- The offset `BNNN` adds (R78). -/
def jumpOffset (nnn : Addr) (s : State) : Byte := s.reg (jumpOffsetReg nnn s)

/-- The base address of an index access (R34): `I`, exact, not cut to 12 bits (R17). -/
def indexBase (s : State) : Nat := s.I.toNat

/-- `zext_16(nnn)` (R54). -/
def addrWord (nnn : Addr) : Word := nnn.setWidth 16

/-- The column a draw starts at (R74): `V[X] mod 64`. -/
def startColumn (x : Reg) (s : State) : Nat := (s.reg x).toNat % dispW

/-- The row a draw starts at (R74): `V[Y] mod 32`. -/
def startRow (y : Reg) (s : State) : Nat := (s.reg y).toNat % dispH

/-- The key that `V[X]` names (R102): a value above `0xF` raises `InvalidOperand`. -/
def keyOperand (x : Reg) (s : State) : Except Fault Key :=
  if h : (s.reg x).toNat < numKeys then .ok ⟨(s.reg x).toNat, h⟩ else .error .invalidOperand

/-- `zext_8(k)` (R105). -/
def keyByte (k : Key) : Byte := BitVec.ofNat 8 k.val

/-- The three decimal digits of a byte (R99): hundreds, tens, ones. -/
def decimalDigits (v : Byte) : List Byte :=
  [BitVec.ofNat 8 (v.toNat / 100), BitVec.ofNat 8 (v.toNat / 10 % 10), BitVec.ofNat 8 (v.toNat % 10)]

/-- `0x050 + 5 * d` (R98), for every byte `d`. -/
def glyphAddr (d : Byte) : Word := BitVec.ofNat 16 (fontBase + glyphBytes * d.toNat)

end Sys2Proof.Machine
end

