-- ==== Sys2Proof/Machine/Flags.lean ====
section
/-! DEFINITION. The flag computations: `VF` is the only flag (R14, R22), and these are the values it takes. -/

namespace Sys2Proof.Machine

/-- A flag as the byte written to `VF`: 1 or 0. -/
def flagByte (c : Bool) : Byte := if c then 1 else 0

/-- `VF <- c`, whatever `VF` held (R14). -/
def State.setVF (s : State) (c : Bool) : State := s.setReg Reg.vf (flagByte c)

/-- Carry of `8XY4` (R89): the exact sum exceeds 255. -/
def carryOut (a b : Byte) : Bool := decide (a.toNat + b.toNat > 255)

/-- No-borrow of `a - b` (R90, R92): `a ≥ b`. -/
def noBorrow (a b : Byte) : Bool := decide (a.toNat ≥ b.toNat)

/-- The bit `8XY6` shifts out (R91): bit 0. -/
def lowBit (a : Byte) : Bool := a.getLsbD 0

/-- The bit `8XYE` shifts out (R93): bit 7. -/
def highBit (a : Byte) : Bool := a.getLsbD 7

/-- The overflow of `FX1E` (R97): the exact sum exceeds `0xFFF`. -/
def indexOverflow (i : Word) (b : Byte) : Bool := decide (i.toNat + b.toNat > addrMax)

end Sys2Proof.Machine
end

