-- ==== Sys2Proof/Machine/Alu.lean ====
section
/-! DEFINITION. Loads, arithmetic, logic, shifts and random: `6XNN`, `7XNN`, `8XY0`–`8XYE`, `CXNN`. Operands are sampled
from the state before the first write (R65); of two writes to `VF` the last wins (R66). -/

namespace Sys2Proof.Machine

/-- `6XNN` LD Vx, byte (R83). -/
def execLdImm (x : Reg) (nn : Byte) (s : State) : Result := advance (s.setReg x nn)

/-- `7XNN` ADD Vx, byte (R84): no flag. -/
def execAddImm (x : Reg) (nn : Byte) (s : State) : Result := advance (s.setReg x (s.reg x + nn))

/-- `8XY0` LD Vx, Vy (R85). -/
def execLdReg (x y : Reg) (s : State) : Result := advance (s.setReg x (s.reg y))

/-- `8XY1` OR Vx, Vy (R86). -/
def execOrReg (x y : Reg) (s : State) : Result := advance (s.setReg x (s.reg x ||| s.reg y))

/-- `8XY2` AND Vx, Vy (R87). -/
def execAndReg (x y : Reg) (s : State) : Result := advance (s.setReg x (s.reg x &&& s.reg y))

/-- `8XY3` XOR Vx, Vy (R88). -/
def execXorReg (x y : Reg) (s : State) : Result := advance (s.setReg x (s.reg x ^^^ s.reg y))

/-- `8XY4` ADD Vx, Vy (R89): the sum first, then the carry. -/
def execAddReg (x y : Reg) (s : State) : Result :=
  advance ((s.setReg x (s.reg x + s.reg y)).setVF (carryOut (s.reg x) (s.reg y)))

/-- `8XY5` SUB Vx, Vy (R90): the difference first, then the no-borrow flag. -/
def execSub (x y : Reg) (s : State) : Result :=
  advance ((s.setReg x (s.reg x - s.reg y)).setVF (noBorrow (s.reg x) (s.reg y)))

/-- `8XY6` SHR Vx, Vy (R91): the flag first, then the result. -/
def execShr (x y : Reg) (s : State) : Result :=
  advance ((s.setVF (lowBit (shiftSource x y s))).setReg x (shiftSource x y s >>> 1))

/-- `8XY7` SUBN Vx, Vy (R92): the difference first, then the no-borrow flag. -/
def execSubn (x y : Reg) (s : State) : Result :=
  advance ((s.setReg x (s.reg y - s.reg x)).setVF (noBorrow (s.reg y) (s.reg x)))

/-- `8XYE` SHL Vx, Vy (R93): the flag first, then the result. -/
def execShl (x y : Reg) (s : State) : Result :=
  advance ((s.setVF (highBit (shiftSource x y s))).setReg x (shiftSource x y s <<< 1))

/-- `CXNN` RND Vx, byte (R94) for a given draw `r`. -/
def rndWith (r : Byte) (x : Reg) (nn : Byte) (s : State) : Result := advance ((s.setReg x (r &&& nn)).countDraw)

/-- `CXNN` RND Vx, byte (R94): the draw is the next free byte (R7). -/
def execRnd (x : Reg) (nn : Byte) (s : State) : Result := rndWith (Config.freeByte s.draws) x nn s

end Sys2Proof.Machine
end

