-- ==== Sys2Proof/Machine/Display.lean ====
section
/-! DEFINITION. Display instructions: `00E0`, `DXYN`. -/

namespace Sys2Proof.Machine

/-- `00E0` CLS (R73). -/
def execCls (s : State) : Result := advance (s.setDisp Display.clear)

/-- `DXYN` DRW Vx, Vy, N (R74): the rows are read and checked first; `VF` is written after the draw. -/
def execDrw (x y : Reg) (n : Nibble) (s : State) : Result :=
  orRaise (memReadList (indexBase s) n.toNat s) fun rows =>
    let cv := drawSprite rows (startColumn x s) (startRow y s) s.disp
    advance ((s.setDisp cv.disp).setVF cv.hit)

end Sys2Proof.Machine
end

