-- ==== Sys2Proof/Machine/FlowControl.lean ====
section
/-! DEFINITION. Control transfer: `00EE`, `1NNN`, `2NNN`, `BNNN`. -/

namespace Sys2Proof.Machine

/-- `00EE` RET (R75): the popped entry already is the address after the call. -/
def execRet (s : State) : Result := orRaise (pop s) fun (t, s') => jumpTo t.toNat s'

/-- `1NNN` JP addr (R76). -/
def execJp (nnn : Addr) (s : State) : Result := jumpTo nnn.toNat s

/-- `2NNN` CALL addr (R77): the stack check comes before the check of the return address `a + 2` (R112). -/
def execCall (nnn : Addr) (s : State) : Result :=
  orRaise (push (BitVec.ofNat 16 (s.pc.toNat + insnBytes)) s) fun s' =>
    if s.pc.toNat + insnBytes > addrMax then raise .invalidOperand else jumpTo nnn.toNat s'

/-- `BNNN` JP V0, addr (R78): the sum is exact, and a target above `0xFFF` raises `InvalidOperand`. -/
def execJpV0 (nnn : Addr) (s : State) : Result := jumpTo (nnn.toNat + (jumpOffset nnn s).toNat) s

end Sys2Proof.Machine
end

