-- ==== Sys2Proof/Machine/IndexMemory.lean ====
section
/-! DEFINITION. Index register and memory access: `ANNN`, `FX1E`, `FX29`, `FX33`, `FX55`, `FX65`. No access changes
`I`. -/

namespace Sys2Proof.Machine

/-- `ANNN` LD I, addr (R96). -/
def execLdI (nnn : Addr) (s : State) : Result := advance (s.setI (addrWord nnn))

/-- `FX1E` ADD I, Vx (R97): `I` wraps modulo 65536, then `VF` under `P_FX1E_VF`. -/
def execAddIVx (x : Reg) (s : State) : Result :=
  let t := s.setI (s.I + (s.reg x).setWidth 16)
  advance (if s.cfg.fx1eVf then t.setVF (indexOverflow s.I (s.reg x)) else t)

/-- `FX29` LD F, Vx (R98): no masking of the digit and no error. -/
def execLdFVx (x : Reg) (s : State) : Result := advance (s.setI (glyphAddr (s.reg x)))

/-- `FX33` LD B, Vx (R99). -/
def execLdBVx (x : Reg) (s : State) : Result :=
  orRaise (memWriteList (indexBase s) (decimalDigits (s.reg x)) s) advance

/-- `FX55` LD [I], Vx (R100): `V0` to `Vx` inclusive. -/
def execLdMemVx (x : Reg) (s : State) : Result :=
  orRaise (readRegs 0 (x.val + 1) s) fun bs => orRaise (memWriteList (indexBase s) bs s) advance

/-- `FX65` LD Vx, [I] (R101): `V0` to `Vx` inclusive, all bytes read before the first register is written. -/
def execLdVxMem (x : Reg) (s : State) : Result :=
  orRaise (memReadList (indexBase s) (x.val + 1) s) fun bs => orRaise (writeRegs 0 bs s) advance

end Sys2Proof.Machine
end

