-- ==== Sys2Proof/Machine/KeysTimers.lean ====
section
/-! DEFINITION. Keys and timers: `EX9E`, `EXA1`, `FX07`, `FX0A`, `FX15`, `FX18`. -/

namespace Sys2Proof.Machine

/-- `EX9E` SKP Vx (R102). -/
def execSkp (x : Reg) (s : State) : Result := orRaise (keyOperand x s) fun k => skipIf (s.keyDown k) s

/-- `EXA1` SKNP Vx (R103). -/
def execSknp (x : Reg) (s : State) : Result := orRaise (keyOperand x s) fun k => skipIf (!s.keyDown k) s

/-- `FX07` LD Vx, DT (R104). -/
def execLdVxDT (x : Reg) (s : State) : Result := advance (s.setReg x s.DT)

/-- `FX0A` LD Vx, K (R105): the first step starts the wait, a later one completes it once a key edge is latched, and
any other holds. -/
def execLdVxK (x : Reg) (s : State) : Result :=
  if s.kwait then
    match s.klatch with
    | some k => advance ((s.setReg x (keyByte k)).setWait false none)
    | none => hold s
  else hold (s.setWait true none)

/-- `FX15` LD DT, Vx (R106). -/
def execLdDTVx (x : Reg) (s : State) : Result := advance (s.setDT (s.reg x))

/-- `FX18` LD ST, Vx (R107). -/
def execLdSTVx (x : Reg) (s : State) : Result := advance (s.setST (s.reg x))

end Sys2Proof.Machine
end

