-- ==== Sys2Proof/Machine/Skips.lean ====
section
/-! DEFINITION. Conditional skips: `3XNN`, `4XNN`, `5XY0`, `9XY0`. The skipped word is not fetched. -/

namespace Sys2Proof.Machine

/-- `3XNN` SE Vx, byte (R79). -/
def execSeImm (x : Reg) (nn : Byte) (s : State) : Result := skipIf (s.reg x == nn) s

/-- `4XNN` SNE Vx, byte (R80). -/
def execSneImm (x : Reg) (nn : Byte) (s : State) : Result := skipIf (s.reg x != nn) s

/-- `5XY0` SE Vx, Vy (R81). -/
def execSeReg (x y : Reg) (s : State) : Result := skipIf (s.reg x == s.reg y) s

/-- `9XY0` SNE Vx, Vy (R82). -/
def execSneReg (x y : Reg) (s : State) : Result := skipIf (s.reg x != s.reg y) s

end Sys2Proof.Machine
end

