-- ==== Sys2Proof/Machine/Step.lean ====
section
/-! DEFINITION. One `step()` (R61): fetch, decode, execute. -/

namespace Sys2Proof.Machine

/-- One step (R61). An illegal word raises `UnimplementedOpcode` after the fetch (R63). -/
def step (s : State) : Host.Outcome State Fault Refusal :=
  orRaise (fetch s) fun op =>
    match decodeWord op with
    | some i => exec i s
    | none => raise .unimplementedOpcode

/-- The state with an instruction's bits, numbered as the opcode table numbers them, where the next step fetches. -/
def State.withFetchWord (s : State) (nbits w : Nat) : State := placeWord (tableWord nbits w) s

end Sys2Proof.Machine
end

