-- ==== Sys2Proof/Machine/Assembly.lean ====
section
/-! DEFINITION. The assembly syntax of R60 as text, both ways: the text of an instruction, and the instruction a text
is, refused where an operand is outside its field. Letters are written and read as the spec's table writes them (log
17). -/

namespace Sys2Proof

/-- A line of assembly as its characters. -/
abbrev Text := List Char

/-! ### Numbers and registers -/

/-- The digits of both bases, in order. -/
def digitChars : List Char :=
  ['0', '1', '2', '3', '4', '5', '6', '7'] ++ ['8', '9', 'A', 'B', 'C', 'D', 'E', 'F']

/-- The digit a number below 16 is written with. -/
def digitChar (d : Nat) : Char := digitChars.getD d '0'

/-- The value of a digit. -/
def digitValue? (c : Char) : Option Nat := digitChars.idxOf? c

/-- The `k` lowest hexadecimal digits of a number, the highest first. -/
def hexDigits : Nat → Nat → Text
  | 0, _ => []
  | k + 1, n => digitChar (n / 16 ^ k % 16) :: hexDigits k n

/-- A number in `0x` hexadecimal. -/
def hexText (k n : Nat) : Text := '0' :: 'x' :: hexDigits k n

/-- The number that digits of a base continue, `acc` being what stands before them. -/
def readDigits (base : Nat) : Nat → Text → Option Nat
  | acc, [] => some acc
  | acc, c :: cs =>
    match digitValue? c with
    | some v => if v < base then readDigits base (acc * base + v) cs else none
    | none => none

/-- A number in decimal or `0x` hexadecimal (R60), with at least one digit. -/
def readNumber : Text → Option Nat
  | '0' :: 'x' :: c :: cs => readDigits 16 0 (c :: cs)
  | c :: cs => readDigits 10 0 (c :: cs)
  | [] => none

/-- `V0`–`VF`. -/
def regText (r : Reg) : Text := ['V', digitChar r.val]

/-! ### The text of an instruction -/

/-- How a mnemonic is written. -/
def Mnemonic.text : Mnemonic → Text
  | .CLS => ['C', 'L', 'S']
  | .RET => ['R', 'E', 'T']
  | .JP => ['J', 'P']
  | .CALL => ['C', 'A', 'L', 'L']
  | .SE => ['S', 'E']
  | .SNE => ['S', 'N', 'E']
  | .LD => ['L', 'D']
  | .ADD => ['A', 'D', 'D']
  | .OR => ['O', 'R']
  | .AND => ['A', 'N', 'D']
  | .XOR => ['X', 'O', 'R']
  | .SUB => ['S', 'U', 'B']
  | .SHR => ['S', 'H', 'R']
  | .SUBN => ['S', 'U', 'B', 'N']
  | .SHL => ['S', 'H', 'L']
  | .RND => ['R', 'N', 'D']
  | .DRW => ['D', 'R', 'W']
  | .SKP => ['S', 'K', 'P']
  | .SKNP => ['S', 'K', 'N', 'P']

/-- How an operand is written, numbers in hexadecimal. -/
def AsmOperand.text : AsmOperand → Text
  | .reg r => regText r
  | .byte nn => hexText 2 nn.toNat
  | .addr nnn => hexText 3 nnn.toNat
  | .nibble n => hexText 1 n.toNat
  | .indexReg => ['I']
  | .delayTimer => ['D', 'T']
  | .soundTimer => ['S', 'T']
  | .keyWait => ['K']
  | .fontGlyph => ['F']
  | .decimalDigits => ['B']
  | .memAtI => ['[', 'I', ']']

/-- Operands separated by commas. -/
def operandsText : List AsmOperand → Text
  | [] => []
  | [o] => o.text
  | o :: p :: os => o.text ++ ',' :: ' ' :: operandsText (p :: os)

/-- A line of assembly as text (R60). -/
def AsmLine.text (l : AsmLine) : Text :=
  match l.operands with
  | [] => l.mnemonic.text
  | o :: os => l.mnemonic.text ++ ' ' :: operandsText (o :: os)

/-! ### Reading -/

/-- An operand as read: which width a number has, its instruction says. -/
inductive RawOperand where
  | reg (r : Nat)
  | num (n : Nat)
  | indexReg
  | delayTimer
  | soundTimer
  | keyWait
  | fontGlyph
  | decimalDigits
  | memAtI
deriving DecidableEq, Repr

/-- A text without the spaces around it. -/
def trimSpaces (t : Text) : Text := ((t.dropWhile (· == ' ')).reverse.dropWhile (· == ' ')).reverse

/-- The pieces of a text between its commas. -/
def splitCommas : Text → List Text
  | [] => [[]]
  | c :: cs =>
    if c = ',' then [] :: splitCommas cs
    else
      match splitCommas cs with
      | [] => [[c]]
      | t :: ts => (c :: t) :: ts

/-- The operand a text is. -/
def readOperand : Text → Option RawOperand
  | ['I'] => some .indexReg
  | ['D', 'T'] => some .delayTimer
  | ['S', 'T'] => some .soundTimer
  | ['K'] => some .keyWait
  | ['F'] => some .fontGlyph
  | ['B'] => some .decimalDigits
  | ['[', 'I', ']'] => some .memAtI
  | ['V', d] => (digitValue? d).map .reg
  | t => (readNumber t).map .num

/-- The operands of a line. -/
def readOperands (t : Text) : Option (List RawOperand) :=
  if trimSpaces t = [] then some [] else (splitCommas t).mapM fun p => readOperand (trimSpaces p)

/-- The mnemonics of R60. -/
def mnemonics : List Mnemonic :=
  [.CLS, .RET, .JP, .CALL, .SE, .SNE, .LD, .ADD, .OR, .AND] ++ [.XOR, .SUB, .SHR, .SUBN, .SHL, .RND, .DRW, .SKP, .SKNP]

/-- The mnemonic a text is. -/
def readMnemonic (t : Text) : Option Mnemonic := mnemonics.find? fun m => m.text == t

/-- The instruction a mnemonic makes of its operands (the table of R60), with numbers not yet held to their widths. -/
def Mnemonic.raw? (m : Mnemonic) (os : List RawOperand) : Option RawInstr :=
  match m, os with
  | .CLS, [] => some { kind := .CLS }
  | .RET, [] => some { kind := .RET }
  | .JP, [.num a] => some { kind := .JP, nnn := a }
  | .JP, [.reg 0, .num a] => some { kind := .JP_V0, nnn := a }
  | .CALL, [.num a] => some { kind := .CALL, nnn := a }
  | .SE, [.reg x, .num b] => some { kind := .SE_IMM, x := x, nn := b }
  | .SE, [.reg x, .reg y] => some { kind := .SE_REG, x := x, y := y }
  | .SNE, [.reg x, .num b] => some { kind := .SNE_IMM, x := x, nn := b }
  | .SNE, [.reg x, .reg y] => some { kind := .SNE_REG, x := x, y := y }
  | .LD, [.reg x, .num b] => some { kind := .LD_IMM, x := x, nn := b }
  | .LD, [.reg x, .reg y] => some { kind := .LD_REG, x := x, y := y }
  | .LD, [.indexReg, .num a] => some { kind := .LD_I, nnn := a }
  | .LD, [.reg x, .delayTimer] => some { kind := .LD_VX_DT, x := x }
  | .LD, [.reg x, .keyWait] => some { kind := .LD_VX_K, x := x }
  | .LD, [.delayTimer, .reg x] => some { kind := .LD_DT_VX, x := x }
  | .LD, [.soundTimer, .reg x] => some { kind := .LD_ST_VX, x := x }
  | .LD, [.fontGlyph, .reg x] => some { kind := .LD_F_VX, x := x }
  | .LD, [.decimalDigits, .reg x] => some { kind := .LD_B_VX, x := x }
  | .LD, [.memAtI, .reg x] => some { kind := .LD_MEM_VX, x := x }
  | .LD, [.reg x, .memAtI] => some { kind := .LD_VX_MEM, x := x }
  | .ADD, [.reg x, .num b] => some { kind := .ADD_IMM, x := x, nn := b }
  | .ADD, [.reg x, .reg y] => some { kind := .ADD_REG, x := x, y := y }
  | .ADD, [.indexReg, .reg x] => some { kind := .ADD_I_VX, x := x }
  | .OR, [.reg x, .reg y] => some { kind := .OR, x := x, y := y }
  | .AND, [.reg x, .reg y] => some { kind := .AND, x := x, y := y }
  | .XOR, [.reg x, .reg y] => some { kind := .XOR, x := x, y := y }
  | .SUB, [.reg x, .reg y] => some { kind := .SUB, x := x, y := y }
  | .SHR, [.reg x, .reg y] => some { kind := .SHR, x := x, y := y }
  | .SUBN, [.reg x, .reg y] => some { kind := .SUBN, x := x, y := y }
  | .SHL, [.reg x, .reg y] => some { kind := .SHL, x := x, y := y }
  | .RND, [.reg x, .num b] => some { kind := .RND, x := x, nn := b }
  | .DRW, [.reg x, .reg y, .num n] => some { kind := .DRW, x := x, y := y, n := n }
  | .SKP, [.reg x] => some { kind := .SKP, x := x }
  | .SKNP, [.reg x] => some { kind := .SKNP, x := x }
  | _, _ => none

/-- A line of text as raw operands: the mnemonic up to the first space, then the operands. -/
def readLine (t : Text) : Option RawInstr := do
  let line := trimSpaces t
  let m ← readMnemonic (line.takeWhile (· != ' '))
  let os ← readOperands (line.dropWhile (· != ' '))
  m.raw? os

/-- The instruction a line of assembly is (R60). No pseudo-instructions are defined. -/
def assemble (t : Text) : Option Instr := do
  let r ← readLine t
  r.instr?

end Sys2Proof
end

