-- ==== Sys2Proof/Machine/Transactions.lean ====
section
/-! DEFINITION. The core's interface as a set of transactions (R118): reset, load, step, tick, key events and the two
observations, with the host's lifecycle (R131, R133) that says which of them has a transition. -/

namespace Sys2Proof.Machine

/-! ### Reset (R128) -/

/-- Memory with a font copied in at `0x050` (R128). -/
def Memory.withFont (f : Font) : Memory := Memory.writeList [] fontBase f.toList

/-- The state after `reset()` in a configuration (R128, R29), before any draw. -/
def State.resetWith (c : Config) : State := { State.reset with mem := Memory.withFont c.font, cfg := c }

/-- `reset()` on a running core (R128): `cfg` is kept (R130), the program is not reloaded. The draws already made are
not repeated (log 2). -/
def reset (s : State) : State := { State.resetWith s.cfg with draws := s.draws }

/-! ### Load (R131) -/

/-- `load(p)` (R131): the bytes as they are, from `0x200`; a failing load writes nothing. -/
def load (p : List Byte) (s : State) : Except Fault State :=
  if p.length > maxImage then .error .imageTooLarge else .ok (s.setMem (s.mem.writeList progBase p))

/-- The launch state `load(reset(), image)` (R131). -/
def launch (c : Config) (image : List Byte) : Except Fault State := load image (State.resetWith c)

/-! ### Timer tick (R121) -/

/-- One timer toward zero, never below it. -/
def decrement (b : Byte) : Byte := if b.toNat > 0 then b - 1 else b

/-- `tick_timers()` (R121): both timers in one transaction. -/
def tickTimers (s : State) : State := (s.setDT (decrement s.DT)).setST (decrement s.ST)

/-! ### Keys (R119) -/

/-- `set_key(k, p)` (R119). -/
def pressKey (k : Key) (p : Bool) (s : State) : State :=
  let t := if p && !s.keyDown k && s.kwait && s.klatch.isNone then s.setWait s.kwait (some k) else s
  t.setKey k p

/-- `set_key` as called with a number: an index outside `0..15` is outside the interface and has no transition
(R119). -/
def setKey (k : Nat) (p : Bool) (s : State) : Option State :=
  if h : k < numKeys then some (pressKey ⟨k, h⟩ p s) else none

/-! ### Observations (R120) -/

/-- `display()` (R120): the read-only 64×32 grid. -/
def display (s : State) : Display := s.disp

/-- `sound_active()` (R120): `ST > 0`. -/
def soundActive (s : State) : Bool := decide (s.ST.toNat > 0)

/-! ### The result of a step (R11, R70) -/

/-- The outcome of `step()` as the host sees it (R11). -/
inductive StepResult where
  | ok (changed : Bool)
  | err (e : Fault)
deriving DecidableEq, Repr

/-- `changed` (R70): the display differs from the one before the step in at least one pixel. -/
def displayChanged (s t : State) : Bool := decide (t.disp ≠ s.disp)

/-- `step()` as a transaction (R61, R118): a failing step returns its kind and leaves the whole state as it was
(R68, R114). None would be a step without a meaning; there is none. -/
def stepTransaction (s : State) : Option (StepResult × State) :=
  match step s with
  | .next t => some (.ok (displayChanged s t), t)
  | .fault e => some (.err e, s)
  | .refused _ => none

/-- The numeric code of an error kind (R108). -/
def Fault.code : Fault → Nat
  | .invalidOperand => 1
  | .stackOverflow => 2
  | .stackUnderflow => 3
  | .imageTooLarge => 4
  | .unimplementedOpcode => 5

/-! ### The interface (R118) with the host's lifecycle (R131, R133) -/

/-- Where the host stands in R133's order. -/
inductive Phase where
  /-- Constructed or reset: `load` has not succeeded yet. -/
  | constructed
  /-- Loaded: no step has run yet. -/
  | loaded
  /-- At least one step has run. -/
  | running
deriving DecidableEq, Repr

/-- A core and where its host stands. The phase is no state of the core: it records the host's duty (R131). -/
structure Session where
  core  : State
  phase : Phase
deriving DecidableEq, Repr

/-- The operations of R118. -/
inductive Transaction where
  | reset
  | load (image : List Byte)
  | step
  | tickTimers
  | setKey (index : Nat) (pressed : Bool)
  | display
  | soundActive
deriving DecidableEq, Repr

/-- What an operation returns (R118). -/
inductive Reply where
  | done
  | stepped (r : StepResult)
  | loadFailed (e : Fault)
  | grid (d : Display)
  | sound (active : Bool)
deriving DecidableEq, Repr

/-- One transaction (R117, R118). None where the interface has no transition: a second or a late `load` (R131), a key
index outside `0..15` (R119), a step before a successful `load` (R133; log 5). -/
def transact (o : Transaction) (c : Session) : Option (Reply × Session) :=
  match o with
  | .reset => some (.done, ⟨reset c.core, .constructed⟩)
  | .load image =>
    match c.phase with
    | .constructed =>
      match load image c.core with
      | .ok t => some (.done, ⟨t, .loaded⟩)
      | .error e => some (.loadFailed e, c)
    | .loaded => none
    | .running => none
  | .step =>
    match c.phase with
    | .constructed => none
    | .loaded => (stepTransaction c.core).map fun (r, t) => (.stepped r, ⟨t, .running⟩)
    | .running => (stepTransaction c.core).map fun (r, t) => (.stepped r, ⟨t, .running⟩)
  | .tickTimers => some (.done, { c with core := tickTimers c.core })
  | .setKey k p => (setKey k p c.core).map fun t => (.done, { c with core := t })
  | .display => some (.grid (display c.core), c)
  | .soundActive => some (.sound (soundActive c.core), c)

/-- A host schedule (R117, R122): whole transactions in any order, as far as each has a transition. -/
def runSchedule : List Transaction → Session → Option Session
  | [], c => some c
  | o :: os, c =>
    match transact o c with
    | some (_, c') => runSchedule os c'
    | none => none

/-- A core just constructed in a configuration (R133). -/
def construct (c : Config) : Session := ⟨State.resetWith c, .constructed⟩

end Sys2Proof.Machine
end

