-- ==== Sys2Proof/Safety.lean ====
section
/-! DEFINITION. The terms that claims use: the invariants of R28, the end of a run (R127), what each instruction may
write (R16), the encoding clause of a rule, and the bit of a sprite over a pixel (R74). -/

namespace Sys2Proof.Machine

/-! ### Invariants -/

/-- The state invariants of R28 (a), (b), (c) and (e), with the canonical form of memory. R28 (d) holds by type. -/
structure State.Inv (s : State) : Prop where
  pcInRange    : s.pc.toNat ≤ addrMax
  depthBound   : s.stack.length ≤ stackDepth
  entriesBound : ∀ t ∈ s.stack, t.toNat ≤ addrMax
  latchInWait  : s.kwait = false → s.klatch = none
  memCanonical : s.mem.wf = true

/-- While an `FX0A` waits, the word at `pc` is that `FX0A` (R105). -/
def State.WaitsAtKeyWait (s : State) : Prop :=
  s.kwait = true → ∃ op x, fetch s = .ok op ∧ decodeWord op = some (.ldVxK x)

/-! ### Outcomes -/

/-- The next state of an outcome, if there is one. -/
def nextState? : Result → Option State
  | .next t => some t
  | .fault _ => none
  | .refused _ => none

/-- The error of an outcome, if it is one. -/
def faultOf? : Result → Option Fault
  | .next _ => none
  | .fault e => some e
  | .refused _ => none

/-! ### The end of a run (R127) -/

/-- How a run ends (R127). -/
inductive RunEnd where
  | error (e : Fault)
  | jumpToSelf
deriving DecidableEq, Repr

/-- The word at `pc` is `1NNN` with `NNN = a`, the jump to itself (R127 (b)). -/
def atJumpToSelf (s : State) : Bool :=
  match fetch s with
  | .ok op => decide (decodeWord op = some (.jp (s.pc.setWidth 12)) ∧ s.pc.toNat ≤ addrMax)
  | .error _ => false

/-- The end a run has come to at a state, if it has (R127). -/
def runEnd? (s : State) : Option RunEnd :=
  match faultOf? (step s) with
  | some e => some (.error e)
  | none => if atJumpToSelf s then some .jumpToSelf else none

/-! ### What an instruction may write (R16) -/

/-- The "V writes" column of R16. -/
def regsWritten (c : Config) : Instr → List Reg
  | .ldImm x _ | .addImm x _ | .ldReg x _ | .orReg x _ | .andReg x _ | .xorReg x _ | .rnd x _ | .ldVxDT x | .ldVxK x => [x]
  | .addReg x _ | .sub x _ | .shr x _ | .subn x _ | .shl x _ => [x, Reg.vf]
  | .drw _ _ _ => [Reg.vf]
  | .addIVx _ => if c.fx1eVf then [Reg.vf] else []
  | .ldVxMem x => (List.finRange numV).filter fun r => decide (r.val ≤ x.val)
  | .cls | .ret | .jp _ | .call _ | .seImm _ _ | .sneImm _ _ | .seReg _ _ | .sneReg _ _ | .ldI _ | .jpV0 _ | .skp _ | .sknp _
  | .ldDTVx _ | .ldSTVx _ | .ldFVx _ | .ldBVx _ | .ldMemVx _ => []

/-- How many bytes an instruction stores from its index address on: `FX33` three (R99), `FX55` `X + 1` (R100), every
other instruction none. -/
def bytesStored : Instr → Nat
  | .ldBVx _ => 3
  | .ldMemVx x => x.val + 1
  | .cls | .ret | .jp _ | .call _ | .seImm _ _ | .sneImm _ _ | .seReg _ _ | .ldImm _ _ | .addImm _ _ | .ldReg _ _ | .orReg _ _
  | .andReg _ _ | .xorReg _ _ | .addReg _ _ | .sub _ _ | .shr _ _ | .subn _ _ | .shl _ _ | .sneReg _ _ | .ldI _ | .jpV0 _
  | .rnd _ _ | .drw _ _ _ | .skp _ | .sknp _ | .ldVxDT _ | .ldVxK _ | .ldDTVx _ | .ldSTVx _ | .addIVx _ | .ldFVx _
  | .ldVxMem _ => 0

/-- An address is one of the bytes an instruction stores to in a state. -/
def storesTo (i : Instr) (s : State) (a : Nat) : Prop := indexBase s ≤ a ∧ a < indexBase s + bytesStored i

/-! ### Encodings and sprites -/

/-- Every word of a row, `(opcode & mask) = pattern`, decodes to that instruction with the word's fields (R50, R57). -/
def DecodesRow (pattern mask : Word) (mk : Fields → Instr) : Prop :=
  ∀ op : Word, op &&& mask = pattern → decodeWord op = some (mk (fields op))

/-- The sprite bit `DXYN` lays over the pixel in column `px` and row `py` (R74): the pixel's distance from the start
position, counted with wraparound, is the column and the row of the sprite. -/
def spriteBit (x y : Reg) (n : Nibble) (s : State) (py : Fin dispH) (px : Fin dispW) : Bool :=
  let c := (px.val + dispW - (s.reg x).toNat % dispW) % dispW
  let r := (py.val + dispH - (s.reg y).toNat % dispH) % dispH
  decide (c < 8) && decide (r < n.toNat) && (s.byteAt (s.I.toNat + r)).getLsbD (7 - c)

end Sys2Proof.Machine
end

