-- ==== Sys2Proof/Certificates/Slice0/Obligations.lean ====
section
/-! DEFINITION. The statements for the provers, from the numbered rules of spec/. A statement about one instruction has
up to four kinds of clause: its row's words decode to it, it completes with the values its rule gives, it raises the
error its rule names, and its frame: `t = (s.setReg x (t.reg x)).setPc t.pc`, say, is that only `V[x]` and `pc` can
differ. Seven statements give the frame of all instructions at once. -/

open Sys2Proof Sys2Proof.Machine

/-! ### Encoding -/

/-- R50: each field is the bits the rule gives, and the fields overlap as it says. -/
def Obligations.FieldsAreTheBitsOfTheWord : Prop :=
  ∀ op : Word,
    (fields op).nib1.toNat = op.toNat / 4096 ∧ (fields op).x.toNat = op.toNat / 256 % 16 ∧
    (fields op).y.toNat = op.toNat / 16 % 16 ∧ (fields op).n.toNat = op.toNat % 16 ∧
    (fields op).nn.toNat = op.toNat % 256 ∧ (fields op).nnn.toNat = op.toNat % 4096 ∧
    (fields op).nn = (fields op).y ++ (fields op).n ∧ (fields op).nnn = (fields op).x ++ (fields op).y ++ (fields op).n

/-- R57: the dispatch of R55 and R56 gives every word the kind of the one row it matches, and `UNIMPL` where it matches
none. -/
def Obligations.DispatchAgreesWithOpcodeTable : Prop :=
  opcodeRows.length = 34 ∧
  (∀ op : Word, ∀ r ∈ opcodeRows, op &&& r.mask = r.pattern → classify op = r.kind) ∧
  (∀ op : Word, ∀ r ∈ opcodeRows, ∀ q ∈ opcodeRows,
    op &&& r.mask = r.pattern → op &&& q.mask = q.pattern → r = q) ∧
  (∀ op : Word, (∀ r ∈ opcodeRows, op &&& r.mask ≠ r.pattern) → classify op = .UNIMPL) ∧
  (∀ op : Word, classify op = tableKind op)

/-- R58, its list of illegal words without its counts: a word decodes to no instruction exactly when it is in one of
the six spaces. -/
def Obligations.IllegalWordsAreTheSixSpaces : Prop :=
  ∀ op : Word, decodeWord op = none ↔
    ((fields op).nib1 = 0x0 ∧ op ≠ 0x00E0 ∧ op ≠ 0x00EE) ∨
    ((fields op).nib1 = 0x5 ∧ (fields op).n ≠ 0) ∨
    ((fields op).nib1 = 0x8 ∧ (fields op).n ∈ [0x8, 0x9, 0xA, 0xB, 0xC, 0xD, 0xF]) ∨
    ((fields op).nib1 = 0x9 ∧ (fields op).n ≠ 0) ∨
    ((fields op).nib1 = 0xE ∧ (fields op).nn ∉ [0x9E, 0xA1]) ∨
    ((fields op).nib1 = 0xF ∧ (fields op).nn ∉ [0x07, 0x0A, 0x15, 0x18, 0x1E, 0x29, 0x33, 0x55, 0x65])

/-- No bit of an encoding is dropped: decoding the word of any instruction, with every operand at every value, gives
the instruction back. -/
def Obligations.DecodingTheEncodingGivesTheInstruction : Prop :=
  ∀ i : Instr, decodeWord (encode i) = some i

/-- R53: no bit of a word is "don't care". A word that decodes to an instruction is that instruction's word. -/
def Obligations.EncodingTheDecodedGivesTheWord : Prop :=
  ∀ (op : Word) (i : Instr), decodeWord op = some i → encode i = op

/-- R52 and R39: the decoder on bytes consumes exactly two, the high byte first, and tells the two reasons to give no
instruction apart. -/
def Obligations.DecoderConsumesTwoBytesHighFirst : Prop :=
  (∀ (i : Instr) (rest : List Byte), decode (encodeBytes i ++ rest) = .ok (i, rest)) ∧
  (∀ (hi lo : Byte) (rest : List Byte) (i : Instr) (rest' : List Byte),
    decode (hi :: lo :: rest) = .ok (i, rest') → rest' = rest ∧ decodeWord (hi ++ lo) = some i) ∧
  (∀ bs : List Byte, bs.length < 2 → decode bs = .error .truncated) ∧
  (∀ (hi lo : Byte) (rest : List Byte), decodeWord (hi ++ lo) = none →
    decode (hi :: lo :: rest) = .error (.unimpl (hi ++ lo)))

/-- Words written out from the spec's encodings (95_test_vectors.md, section 2), one or more of every family. -/
def Obligations.WordsOfTheSpecDecode : Prop :=
  decodeWord 0x00E0 = some .cls ∧ decodeWord 0x00EE = some .ret ∧ decodeWord 0x1FFF = some (.jp 0xFFF) ∧
  decodeWord 0x2300 = some (.call 0x300) ∧ decodeWord 0xB2F0 = some (.jpV0 0x2F0) ∧
  decodeWord 0x3342 = some (.seImm 3 0x42) ∧ decodeWord 0x5AB0 = some (.seReg 0xA 0xB) ∧
  decodeWord 0x7005 = some (.addImm 0 5) ∧ decodeWord 0x8AB4 = some (.addReg 0xA 0xB) ∧
  decodeWord 0x8F1E = some (.shl 0xF 1) ∧ decodeWord 0xC3FF = some (.rnd 3 0xFF) ∧
  decodeWord 0xD123 = some (.drw 1 2 3) ∧ decodeWord 0xE59E = some (.skp 5) ∧ decodeWord 0xF71E = some (.addIVx 7) ∧
  decodeWord 0xF00A = some (.ldVxK 0) ∧ decodeWord 0xF765 = some (.ldVxMem 7) ∧
  decodeWord 0x00E1 = none ∧ decodeWord 0x0123 = none ∧ decodeWord 0x5AB1 = none ∧ decodeWord 0xFFFF = none

/-- R60: the text of an instruction, its numbers in `0x` hexadecimal, assembles to that instruction. -/
def Obligations.AssemblingTheTextGivesTheInstruction : Prop :=
  ∀ i : Instr, assemble i.asm.text = some i

/-! ### The step -/

/-- R61, R64: where the two bytes at `pc` decode to an instruction, the step is that instruction's meaning at the state,
and nothing else. -/
def Obligations.StepRunsTheDecodedInstruction : Prop :=
  ∀ (s : State) (i : Instr), s.pc.toNat + 1 ≤ 0xFFF →
    decodeWord (s.byteAt s.pc.toNat ++ s.byteAt (s.pc.toNat + 1)) = some i → step s = exec i s

/-- R62 and R63: a fetch beyond `0xFFF` raises `InvalidOperand`, and an illegal word raises `UnimplementedOpcode`. -/
def Obligations.FetchErrorsAndIllegalWords : Prop :=
  (∀ s : State, s.pc.toNat + 1 > 0xFFF →
    fetch s = .error .invalidOperand ∧ step s = .fault .invalidOperand) ∧
  (∀ s : State, s.pc.toNat + 1 ≤ 0xFFF →
    fetch s = .ok (s.byteAt s.pc.toNat ++ s.byteAt (s.pc.toNat + 1))) ∧
  (∀ s : State, s.pc.toNat + 1 ≤ 0xFFF →
    decodeWord (s.byteAt s.pc.toNat ++ s.byteAt (s.pc.toNat + 1)) = none → step s = .fault .unimplementedOpcode)

/-- R112, R108, R109: which step raises which error, with the priority between kinds, and no step lacks a meaning. -/
def Obligations.ErrorKindsAndTheirPriority : Prop :=
  (∀ (s : State) (r : Refusal), step s ≠ .refused r) ∧
  (∀ s : State, step s ≠ .fault .imageTooLarge) ∧
  (∀ s : State, step s = .fault .unimplementedOpcode ↔ ∃ op, fetch s = .ok op ∧ decodeWord op = none) ∧
  (∀ s : State, step s = .fault .stackOverflow ↔
    ∃ op nnn, fetch s = .ok op ∧ decodeWord op = some (.call nnn) ∧ 16 ≤ s.stack.length) ∧
  (∀ s : State, step s = .fault .stackUnderflow ↔
    ∃ op, fetch s = .ok op ∧ decodeWord op = some .ret ∧ s.stack = [])

/-- R68 and R114: a failing step leaves the whole state as it was, and stepping on any number of times reports the same
error and changes nothing. -/
def Obligations.FailingStepChangesNothing : Prop :=
  ∀ (s : State) (e : Fault), step s = .fault e →
    stepTransaction s = some (.err e, s) ∧
    transact .step ⟨s, .running⟩ = some (.stepped (.err e), ⟨s, .running⟩) ∧
    ∀ n : Nat, runSchedule (List.replicate n .step) ⟨s, .running⟩ = some ⟨s, .running⟩

/-- R114's remark on ticks: no error outcome depends on the timers. -/
def Obligations.TicksNeverChangeAnError : Prop :=
  ∀ (s : State) (e : Fault), step s = .fault e ↔ step (tickTimers s) = .fault e

/-- R114's remark on keys, as far as R102 and R103 bear it out (log 6): a key event changes no error of a step whose
`pc + 4` is in range, and it does change one of a key skip that has no room for the skip. -/
def Obligations.KeyEventsAndErrors : Prop :=
  (∀ (s : State) (e : Fault) (k : Key) (p : Bool), s.pc.toNat + 4 ≤ 0xFFF → step s = .fault e →
    step (pressKey k p s) = .fault e) ∧
  (∃ (s t : State) (k : Key) (p : Bool), s.Inv ∧ step s = .fault .invalidOperand ∧ step (pressKey k p s) = .next t)

/-- R70: `changed` is true exactly when some pixel differs, and a failing step returns its error and no `changed`. -/
def Obligations.ChangedMeansSomePixelDiffers : Prop :=
  (∀ s t : State, step s = .next t →
    ∃ c : Bool, stepTransaction s = some (.ok c, t) ∧
      (c = true ↔ ∃ py px, Display.pixel t.disp py px ≠ Display.pixel s.disp py px)) ∧
  (∀ (s : State) (e : Fault), step s = .fault e → stepTransaction s = some (.err e, s))

/-- R127 (b) and R76: at a jump to itself the run has ended, and each further step gives the same state. -/
def Obligations.JumpToSelfIsAFixedPoint : Prop :=
  (∀ s : State, runEnd? s = some .jumpToSelf → ∀ n : Nat, Sys2Proof.core.run n s = .next s) ∧
  (∀ (s : State) (op : Word) (nnn : Addr), fetch s = .ok op → decodeWord op = some (.jp nnn) →
    nnn.toNat = s.pc.toNat → runEnd? s = some .jumpToSelf)

/-! ### Invariants -/

/-- R28, R29: reset establishes the invariants, in every configuration. The canonical form of memory in `Inv` is the
model's own part (log 3). -/
def Obligations.ResetEstablishesInvariants : Prop :=
  (∀ c : Config, (State.resetWith c).Inv) ∧ State.reset.Inv ∧ (∀ s : State, (reset s).Inv)

/-- R28: every step that completes keeps the invariants, from every state that has them. The canonical form of memory
in `Inv` is the model's own part (log 3). -/
def Obligations.StepKeepsInvariants : Prop :=
  ∀ s t : State, s.Inv → step s = .next t → t.Inv

/-- R28, whose list the spec itself marks as derived: every transaction keeps the invariants, so every schedule of the
host does, from any configuration, which stays as it was built (R26, R130). Three parts are the model's own: the
canonical form of memory in `Inv` (log 3), the configuration as a field of State (log 1) and the phases that `transact`
goes by (log 5, read from R131). -/
def Obligations.EveryScheduleKeepsInvariants : Prop :=
  (∀ (o : Transaction) (c d : Session) (r : Reply), c.core.Inv → transact o c = some (r, d) → d.core.Inv) ∧
  (∀ (os : List Transaction) (cfg : Config) (d : Session), runSchedule os (construct cfg) = some d →
    d.core.Inv ∧ d.core.cfg = cfg)

/-- R105, last corner case: while `kwait` is true the word at `pc` is the waiting `FX0A`, whatever steps, ticks and key
events come. -/
def Obligations.WaitingMeansKeyWaitAtPc : Prop :=
  State.reset.WaitsAtKeyWait ∧
  (∀ s t : State, s.WaitsAtKeyWait → step s = .next t → t.WaitsAtKeyWait) ∧
  (∀ s : State, s.WaitsAtKeyWait → (tickTimers s).WaitsAtKeyWait) ∧
  (∀ (s : State) (k : Key) (p : Bool), s.WaitsAtKeyWait → (pressKey k p s).WaitsAtKeyWait)

/-! ### Frames, for all instructions at once -/

/-- R16, R14: an instruction writes no general register but those of the "V writes" column, `VF` among them only where
it is the flag or the destination. -/
def Obligations.OnlyTheNamedRegistersChange : Prop :=
  ∀ (i : Instr) (s t : State), exec i s = .next t → ∀ r, r ∉ regsWritten s.cfg i → t.reg r = s.reg r

/-- R16, R43: the only bytes that change are those `FX33` and `FX55` store, at the index address on. -/
def Obligations.OnlyTheStoredBytesChange : Prop :=
  ∀ (i : Instr) (s t : State), exec i s = .next t → ∀ a, ¬ storesTo i s a → t.byteAt a = s.byteAt a

/-- R17: "No instruction other than the three writers changes `I`." -/
def Obligations.OnlyThreeInstructionsWriteIndex : Prop :=
  ∀ (i : Instr) (s t : State), exec i s = .next t →
    (∀ nnn, i ≠ .ldI nnn) → (∀ x, i ≠ .addIVx x) → (∀ x, i ≠ .ldFVx x) → t.I = s.I

/-- R16, R19: the call stack changes only by `2NNN` and `00EE`. -/
def Obligations.OnlyCallAndReturnTouchTheStack : Prop :=
  ∀ (i : Instr) (s t : State), exec i s = .next t → (∀ nnn, i ≠ .call nnn) → i ≠ .ret → t.stack = s.stack

/-- R30: an instruction writes `DT` and `ST` only through `FX15` and `FX18`. -/
def Obligations.OnlyTwoInstructionsWriteTheTimers : Prop :=
  ∀ (i : Instr) (s t : State), exec i s = .next t →
    ((∀ x, i ≠ .ldDTVx x) → t.DT = s.DT) ∧ ((∀ x, i ≠ .ldSTVx x) → t.ST = s.ST)

/-- R70: "Only `00E0` and `DXYN` write `disp`". -/
def Obligations.OnlyClsAndDrwWriteTheDisplay : Prop :=
  ∀ (i : Instr) (s t : State), exec i s = .next t → i ≠ .cls → (∀ x y n, i ≠ .drw x y n) → t.disp = s.disp

/-- R30, R25, R26: no instruction writes `key` or `cfg`; only `FX0A` writes `kwait` and `klatch`; only `CXNN` draws (the
model's own counter, log 2). -/
def Obligations.KeysConfigurationAndWaitStateAreKept : Prop :=
  ∀ (i : Instr) (s t : State), exec i s = .next t →
    t.key = s.key ∧ t.cfg = s.cfg ∧ ((∀ x, i ≠ .ldVxK x) → t.kwait = s.kwait ∧ t.klatch = s.klatch) ∧
    ((∀ x nn, i ≠ .rnd x nn) → t.draws = s.draws)

/-! ### Display -/

/-- R73. -/
def Obligations.ClearDisplay : Prop :=
  DecodesRow 0x00E0 0xFFFF (fun _ => .cls) ∧
  (∀ s : State, s.pc.toNat + 2 ≤ 0xFFF → ∃ t, exec .cls s = .next t ∧ t.pc.toNat = s.pc.toNat + 2 ∧
    (∀ py px, Display.pixel t.disp py px = false) ∧ t = (s.setDisp t.disp).setPc t.pc ∧
    (displayChanged s t = true ↔ ∃ py px, Display.pixel s.disp py px = true)) ∧
  (∀ s : State, 0xFFF < s.pc.toNat + 2 → exec .cls s = .fault .invalidOperand)

/-- R74: every pixel after the draw is the old one XOR the sprite bit over it; `VF` says whether one was erased. -/
def Obligations.DrawSprite : Prop :=
  DecodesRow 0xD000 0xF000 (fun f => .drw f.regX f.regY f.n) ∧
  (∀ (s : State) (x y : Reg) (n : Nibble), (∀ r < n.toNat, s.I.toNat + r ≤ 0xFFF) → s.pc.toNat + 2 ≤ 0xFFF →
    ∃ t, exec (.drw x y n) s = .next t ∧ t.pc.toNat = s.pc.toNat + 2 ∧
      (∀ py px, Display.pixel t.disp py px = (Display.pixel s.disp py px ^^ spriteBit x y n s py px)) ∧
      (t.reg Reg.vf = 1 ∨ t.reg Reg.vf = 0) ∧
      (t.reg Reg.vf = 1 ↔ ∃ py px, Display.pixel s.disp py px = true ∧ Display.pixel t.disp py px = false) ∧
      t = ((s.setDisp t.disp).setReg Reg.vf (t.reg Reg.vf)).setPc t.pc) ∧
  (∀ (s : State) (x y : Reg) (n : Nibble), (∃ r < n.toNat, 0xFFF < s.I.toNat + r) →
    exec (.drw x y n) s = .fault .invalidOperand) ∧
  (∀ (s : State) (x y : Reg) (n : Nibble), 0xFFF < s.pc.toNat + 2 → exec (.drw x y n) s = .fault .invalidOperand)

/-- E3 of 95_test_vectors.md: drawing the same sprite twice restores the display; `X, Y ≠ F`, since the first draw
rewrites `VF`. The second draw erases what the first turned on, so it reports a collision exactly where the sprite has a
1 bit over a pixel that was off. On a clear display that is any 1 bit of the sprite, as E3 says it; over pixels that are
on, R74's own pseudocode contradicts that remark (log 7). -/
def Obligations.DrawingTwiceRestoresTheDisplay : Prop :=
  ∀ (s : State) (x y : Reg) (n : Nibble), x ≠ Reg.vf → y ≠ Reg.vf → (∀ r < n.toNat, s.I.toNat + r ≤ 0xFFF) →
    s.pc.toNat + 4 ≤ 0xFFF →
    ∃ t u, exec (.drw x y n) s = .next t ∧ exec (.drw x y n) t = .next u ∧ u.disp = s.disp ∧
      (u.reg Reg.vf = 1 ↔ ∃ py px, Display.pixel s.disp py px = false ∧ spriteBit x y n s py px = true) ∧
      ((∀ py px, Display.pixel s.disp py px = false) →
        (u.reg Reg.vf = 1 ↔ ∃ r < n.toNat, s.byteAt (s.I.toNat + r) ≠ 0))

/-! ### Control transfer -/

/-- R75. The new-`pc` check on the popped entry cannot fail in a state with the invariants of R28. -/
def Obligations.ReturnFromSubroutine : Prop :=
  DecodesRow 0x00EE 0xFFFF (fun _ => .ret) ∧
  (∀ (s : State) (top : Word) (rest : List Word), s.stack = top :: rest → top.toNat ≤ 0xFFF →
    exec .ret s = .next ((s.setStack rest).setPc top)) ∧
  (∀ s : State, s.stack = [] → exec .ret s = .fault .stackUnderflow)

/-- R76: no check can fail. -/
def Obligations.Jump : Prop :=
  DecodesRow 0x1000 0xF000 (fun f => .jp f.nnn) ∧
  (∀ (s : State) (nnn : Addr), ∃ t, exec (.jp nnn) s = .next t ∧ t.pc.toNat = nnn.toNat ∧ t = s.setPc t.pc)

/-- R77. -/
def Obligations.CallSubroutine : Prop :=
  DecodesRow 0x2000 0xF000 (fun f => .call f.nnn) ∧
  (∀ (s : State) (nnn : Addr), s.stack.length < 16 → s.pc.toNat + 2 ≤ 0xFFF →
    ∃ t ret, exec (.call nnn) s = .next t ∧ t.pc.toNat = nnn.toNat ∧ t.stack = ret :: s.stack ∧
      ret.toNat = s.pc.toNat + 2 ∧ t = (s.setStack t.stack).setPc t.pc) ∧
  (∀ (s : State) (nnn : Addr), 16 ≤ s.stack.length → exec (.call nnn) s = .fault .stackOverflow) ∧
  (∀ (s : State) (nnn : Addr), s.stack.length < 16 → 0xFFF < s.pc.toNat + 2 →
    exec (.call nnn) s = .fault .invalidOperand)

/-- R78, in both configurations. -/
def Obligations.JumpWithOffset : Prop :=
  DecodesRow 0xB000 0xF000 (fun f => .jpV0 f.nnn) ∧
  (∀ (s : State) (nnn : Addr) (off : Byte),
    (s.cfg.jumpReg = .v0 ∧ off = s.reg 0) ∨ (s.cfg.jumpReg = .vx ∧ off = s.reg (Fin.ofNat 16 (nnn.toNat / 256))) →
    (nnn.toNat + off.toNat ≤ 0xFFF →
      ∃ t, exec (.jpV0 nnn) s = .next t ∧ t.pc.toNat = nnn.toNat + off.toNat ∧ t = s.setPc t.pc) ∧
    (0xFFF < nnn.toNat + off.toNat → exec (.jpV0 nnn) s = .fault .invalidOperand))

/-- R77 with R75: a return undoes a call but for `pc`, which stands after the call. -/
def Obligations.ReturnUndoesCall : Prop :=
  ∀ (s : State) (nnn : Addr), s.stack.length < 16 → s.pc.toNat + 2 ≤ 0xFFF →
    ∃ t u, exec (.call nnn) s = .next t ∧ exec .ret t = .next u ∧ u.pc.toNat = s.pc.toNat + 2 ∧ u = s.setPc u.pc

/-! ### Skips -/

/-- R79, R80: on equal and on unequal values each way, with the error where the new `pc` has no room. -/
def Obligations.SkipOnImmediate : Prop :=
  DecodesRow 0x3000 0xF000 (fun f => .seImm f.regX f.nn) ∧ DecodesRow 0x4000 0xF000 (fun f => .sneImm f.regX f.nn) ∧
  (∀ (s : State) (x : Reg) (nn : Byte) (i : Instr),
    (i = .seImm x nn ∧ s.reg x = nn) ∨ (i = .sneImm x nn ∧ s.reg x ≠ nn) →
    (s.pc.toNat + 4 ≤ 0xFFF → ∃ t, exec i s = .next t ∧ t.pc.toNat = s.pc.toNat + 4 ∧ t = s.setPc t.pc) ∧
    (0xFFF < s.pc.toNat + 4 → exec i s = .fault .invalidOperand)) ∧
  (∀ (s : State) (x : Reg) (nn : Byte) (i : Instr),
    (i = .seImm x nn ∧ s.reg x ≠ nn) ∨ (i = .sneImm x nn ∧ s.reg x = nn) →
    (s.pc.toNat + 2 ≤ 0xFFF → ∃ t, exec i s = .next t ∧ t.pc.toNat = s.pc.toNat + 2 ∧ t = s.setPc t.pc) ∧
    (0xFFF < s.pc.toNat + 2 → exec i s = .fault .invalidOperand))

/-- R81, R82. -/
def Obligations.SkipOnRegisters : Prop :=
  DecodesRow 0x5000 0xF00F (fun f => .seReg f.regX f.regY) ∧ DecodesRow 0x9000 0xF00F (fun f => .sneReg f.regX f.regY) ∧
  (∀ (s : State) (x y : Reg) (i : Instr),
    (i = .seReg x y ∧ s.reg x = s.reg y) ∨ (i = .sneReg x y ∧ s.reg x ≠ s.reg y) →
    (s.pc.toNat + 4 ≤ 0xFFF → ∃ t, exec i s = .next t ∧ t.pc.toNat = s.pc.toNat + 4 ∧ t = s.setPc t.pc) ∧
    (0xFFF < s.pc.toNat + 4 → exec i s = .fault .invalidOperand)) ∧
  (∀ (s : State) (x y : Reg) (i : Instr),
    (i = .seReg x y ∧ s.reg x ≠ s.reg y) ∨ (i = .sneReg x y ∧ s.reg x = s.reg y) →
    (s.pc.toNat + 2 ≤ 0xFFF → ∃ t, exec i s = .next t ∧ t.pc.toNat = s.pc.toNat + 2 ∧ t = s.setPc t.pc) ∧
    (0xFFF < s.pc.toNat + 2 → exec i s = .fault .invalidOperand))

/-- R102, R103. -/
def Obligations.SkipOnKey : Prop :=
  DecodesRow 0xE09E 0xF0FF (fun f => .skp f.regX) ∧ DecodesRow 0xE0A1 0xF0FF (fun f => .sknp f.regX) ∧
  (∀ (s : State) (x : Reg), 0xF < (s.reg x).toNat →
    exec (.skp x) s = .fault .invalidOperand ∧ exec (.sknp x) s = .fault .invalidOperand) ∧
  (∀ (s : State) (x : Reg) (k : Key) (i : Instr), (s.reg x).toNat = k.val →
    (i = .skp x ∧ s.keyDown k = true) ∨ (i = .sknp x ∧ s.keyDown k = false) →
    (s.pc.toNat + 4 ≤ 0xFFF → ∃ t, exec i s = .next t ∧ t.pc.toNat = s.pc.toNat + 4 ∧ t = s.setPc t.pc) ∧
    (0xFFF < s.pc.toNat + 4 → exec i s = .fault .invalidOperand)) ∧
  (∀ (s : State) (x : Reg) (k : Key) (i : Instr), (s.reg x).toNat = k.val →
    (i = .skp x ∧ s.keyDown k = false) ∨ (i = .sknp x ∧ s.keyDown k = true) →
    (s.pc.toNat + 2 ≤ 0xFFF → ∃ t, exec i s = .next t ∧ t.pc.toNat = s.pc.toNat + 2 ∧ t = s.setPc t.pc) ∧
    (0xFFF < s.pc.toNat + 2 → exec i s = .fault .invalidOperand))

/-! ### Loads, arithmetic, logic, shifts, random -/

/-- R83, R84: no flag, even where the sum wraps. -/
def Obligations.LoadAndAddImmediate : Prop :=
  DecodesRow 0x6000 0xF000 (fun f => .ldImm f.regX f.nn) ∧ DecodesRow 0x7000 0xF000 (fun f => .addImm f.regX f.nn) ∧
  (∀ (s : State) (x : Reg) (nn : Byte), s.pc.toNat + 2 ≤ 0xFFF →
    ∃ t, exec (.ldImm x nn) s = .next t ∧ t.reg x = nn ∧ t.pc.toNat = s.pc.toNat + 2 ∧
      t = (s.setReg x (t.reg x)).setPc t.pc) ∧
  (∀ (s : State) (x : Reg) (nn : Byte), s.pc.toNat + 2 ≤ 0xFFF →
    ∃ t, exec (.addImm x nn) s = .next t ∧ (t.reg x).toNat = ((s.reg x).toNat + nn.toNat) % 256 ∧
      t.pc.toNat = s.pc.toNat + 2 ∧ t = (s.setReg x (t.reg x)).setPc t.pc) ∧
  (∀ (s : State) (x : Reg) (nn : Byte), 0xFFF < s.pc.toNat + 2 →
    exec (.ldImm x nn) s = .fault .invalidOperand ∧ exec (.addImm x nn) s = .fault .invalidOperand)

/-- R85 to R88, the logic bit by bit; `VF` is left alone unless it is the destination. -/
def Obligations.CopyAndLogic : Prop :=
  DecodesRow 0x8000 0xF00F (fun f => .ldReg f.regX f.regY) ∧ DecodesRow 0x8001 0xF00F (fun f => .orReg f.regX f.regY) ∧
  DecodesRow 0x8002 0xF00F (fun f => .andReg f.regX f.regY) ∧ DecodesRow 0x8003 0xF00F (fun f => .xorReg f.regX f.regY) ∧
  (∀ (s : State) (x y : Reg), s.pc.toNat + 2 ≤ 0xFFF →
    (∃ t, exec (.ldReg x y) s = .next t ∧ t.reg x = s.reg y ∧ t.pc.toNat = s.pc.toNat + 2 ∧
      t = (s.setReg x (t.reg x)).setPc t.pc) ∧
    (∃ t, exec (.orReg x y) s = .next t ∧
      (∀ b < 8, (t.reg x).getLsbD b = ((s.reg x).getLsbD b || (s.reg y).getLsbD b)) ∧
      t.pc.toNat = s.pc.toNat + 2 ∧ t = (s.setReg x (t.reg x)).setPc t.pc) ∧
    (∃ t, exec (.andReg x y) s = .next t ∧
      (∀ b < 8, (t.reg x).getLsbD b = ((s.reg x).getLsbD b && (s.reg y).getLsbD b)) ∧
      t.pc.toNat = s.pc.toNat + 2 ∧ t = (s.setReg x (t.reg x)).setPc t.pc) ∧
    (∃ t, exec (.xorReg x y) s = .next t ∧
      (∀ b < 8, (t.reg x).getLsbD b = ((s.reg x).getLsbD b ^^ (s.reg y).getLsbD b)) ∧
      t.pc.toNat = s.pc.toNat + 2 ∧ t = (s.setReg x (t.reg x)).setPc t.pc)) ∧
  (∀ (s : State) (x y : Reg), 0xFFF < s.pc.toNat + 2 →
    ∀ i ∈ [Instr.ldReg x y, .orReg x y, .andReg x y, .xorReg x y], exec i s = .fault .invalidOperand)

/-- R89, with R66's order: the carry is the final `VF` also where `X = F`. -/
def Obligations.AddRegisters : Prop :=
  DecodesRow 0x8004 0xF00F (fun f => .addReg f.regX f.regY) ∧
  (∀ (s : State) (x y : Reg), s.pc.toNat + 2 ≤ 0xFFF →
    ∃ t, exec (.addReg x y) s = .next t ∧ t.pc.toNat = s.pc.toNat + 2 ∧
      (x ≠ Reg.vf → (t.reg x).toNat = ((s.reg x).toNat + (s.reg y).toNat) % 256) ∧
      t.reg Reg.vf = (if (s.reg x).toNat + (s.reg y).toNat > 255 then 1 else 0) ∧
      t = ((s.setReg x (t.reg x)).setReg Reg.vf (t.reg Reg.vf)).setPc t.pc) ∧
  (∀ (s : State) (x y : Reg), 0xFFF < s.pc.toNat + 2 → exec (.addReg x y) s = .fault .invalidOperand)

/-- R90, with R66's order. -/
def Obligations.SubtractRegisters : Prop :=
  DecodesRow 0x8005 0xF00F (fun f => .sub f.regX f.regY) ∧
  (∀ (s : State) (x y : Reg), s.pc.toNat + 2 ≤ 0xFFF →
    ∃ t, exec (.sub x y) s = .next t ∧ t.pc.toNat = s.pc.toNat + 2 ∧
      (x ≠ Reg.vf → (t.reg x).toNat = ((s.reg x).toNat + 256 - (s.reg y).toNat) % 256) ∧
      t.reg Reg.vf = (if (s.reg x).toNat ≥ (s.reg y).toNat then 1 else 0) ∧
      t = ((s.setReg x (t.reg x)).setReg Reg.vf (t.reg Reg.vf)).setPc t.pc) ∧
  (∀ (s : State) (x y : Reg), 0xFFF < s.pc.toNat + 2 → exec (.sub x y) s = .fault .invalidOperand)

/-- R92, with R66's order. -/
def Obligations.SubtractReversed : Prop :=
  DecodesRow 0x8007 0xF00F (fun f => .subn f.regX f.regY) ∧
  (∀ (s : State) (x y : Reg), s.pc.toNat + 2 ≤ 0xFFF →
    ∃ t, exec (.subn x y) s = .next t ∧ t.pc.toNat = s.pc.toNat + 2 ∧
      (x ≠ Reg.vf → (t.reg x).toNat = ((s.reg y).toNat + 256 - (s.reg x).toNat) % 256) ∧
      t.reg Reg.vf = (if (s.reg y).toNat ≥ (s.reg x).toNat then 1 else 0) ∧
      t = ((s.setReg x (t.reg x)).setReg Reg.vf (t.reg Reg.vf)).setPc t.pc) ∧
  (∀ (s : State) (x y : Reg), 0xFFF < s.pc.toNat + 2 → exec (.subn x y) s = .fault .invalidOperand)

/-- R91 and R93, in both configurations, with R66's order: with `X = F` the shifted value is the final `VF`. -/
def Obligations.Shifts : Prop :=
  DecodesRow 0x8006 0xF00F (fun f => .shr f.regX f.regY) ∧ DecodesRow 0x800E 0xF00F (fun f => .shl f.regX f.regY) ∧
  (∀ (s : State) (x y : Reg) (src : Byte), s.pc.toNat + 2 ≤ 0xFFF →
    (s.cfg.shiftSrc = .vy ∧ src = s.reg y) ∨ (s.cfg.shiftSrc = .vx ∧ src = s.reg x) →
    (∃ t, exec (.shr x y) s = .next t ∧ t.pc.toNat = s.pc.toNat + 2 ∧ (t.reg x).toNat = src.toNat / 2 ∧
      (x ≠ Reg.vf → (t.reg Reg.vf).toNat = src.toNat % 2) ∧
      t = ((s.setReg x (t.reg x)).setReg Reg.vf (t.reg Reg.vf)).setPc t.pc) ∧
    (∃ t, exec (.shl x y) s = .next t ∧ t.pc.toNat = s.pc.toNat + 2 ∧ (t.reg x).toNat = 2 * src.toNat % 256 ∧
      (x ≠ Reg.vf → (t.reg Reg.vf).toNat = src.toNat / 128) ∧
      t = ((s.setReg x (t.reg x)).setReg Reg.vf (t.reg Reg.vf)).setPc t.pc)) ∧
  (∀ (s : State) (x y : Reg), 0xFFF < s.pc.toNat + 2 →
    exec (.shr x y) s = .fault .invalidOperand ∧ exec (.shl x y) s = .fault .invalidOperand)

/-- R94: for the byte drawn, whatever it is; each `CXNN` takes a draw of its own. -/
def Obligations.RandomMasked : Prop :=
  DecodesRow 0xC000 0xF000 (fun f => .rnd f.regX f.nn) ∧
  (∀ (s : State) (x : Reg) (nn : Byte), s.pc.toNat + 2 ≤ 0xFFF →
    ∃ t, exec (.rnd x nn) s = .next t ∧ t.pc.toNat = s.pc.toNat + 2 ∧ t.draws = s.draws + 1 ∧
      (∀ b < 8, (t.reg x).getLsbD b = ((Config.freeByte s.draws).getLsbD b && nn.getLsbD b)) ∧
      t = (s.setReg x (t.reg x)).countDraw.setPc t.pc) ∧
  (∀ (s : State) (x : Reg) (nn : Byte), 0xFFF < s.pc.toNat + 2 → exec (.rnd x nn) s = .fault .invalidOperand)

/-! ### Index register and memory -/

/-- R96, R98 with R38. -/
def Obligations.LoadIndex : Prop :=
  DecodesRow 0xA000 0xF000 (fun f => .ldI f.nnn) ∧ DecodesRow 0xF029 0xF0FF (fun f => .ldFVx f.regX) ∧
  (∀ (s : State) (nnn : Addr), s.pc.toNat + 2 ≤ 0xFFF →
    ∃ t, exec (.ldI nnn) s = .next t ∧ t.I.toNat = nnn.toNat ∧ t.pc.toNat = s.pc.toNat + 2 ∧
      t = (s.setI t.I).setPc t.pc) ∧
  (∀ (s : State) (x : Reg), s.pc.toNat + 2 ≤ 0xFFF →
    ∃ t, exec (.ldFVx x) s = .next t ∧ t.I.toNat = 0x050 + 5 * (s.reg x).toNat ∧ t.pc.toNat = s.pc.toNat + 2 ∧
      t = (s.setI t.I).setPc t.pc) ∧
  (∀ (s : State) (x : Reg) (nnn : Addr), 0xFFF < s.pc.toNat + 2 →
    exec (.ldI nnn) s = .fault .invalidOperand ∧ exec (.ldFVx x) s = .fault .invalidOperand)

/-- R97, in both configurations. -/
def Obligations.AddToIndex : Prop :=
  DecodesRow 0xF01E 0xF0FF (fun f => .addIVx f.regX) ∧
  (∀ (s : State) (x : Reg), s.pc.toNat + 2 ≤ 0xFFF →
    ∃ t, exec (.addIVx x) s = .next t ∧ t.pc.toNat = s.pc.toNat + 2 ∧
      t.I.toNat = (s.I.toNat + (s.reg x).toNat) % 65536 ∧
      (s.cfg.fx1eVf = true → t.reg Reg.vf = (if s.I.toNat + (s.reg x).toNat > 0xFFF then 1 else 0)) ∧
      (s.cfg.fx1eVf = false → t.reg Reg.vf = s.reg Reg.vf) ∧
      t = ((s.setI t.I).setReg Reg.vf (t.reg Reg.vf)).setPc t.pc) ∧
  (∀ (s : State) (x : Reg), 0xFFF < s.pc.toNat + 2 → exec (.addIVx x) s = .fault .invalidOperand)

/-- R99: three digits that make up the value, most significant first; out of range nothing happens but the error. -/
def Obligations.StoreDecimalDigits : Prop :=
  DecodesRow 0xF033 0xF0FF (fun f => .ldBVx f.regX) ∧
  (∀ (s : State) (x : Reg), s.mem.wf = true → s.I.toNat + 2 ≤ 0xFFF → s.pc.toNat + 2 ≤ 0xFFF →
    ∃ t, exec (.ldBVx x) s = .next t ∧ t.pc.toNat = s.pc.toNat + 2 ∧
      (t.byteAt s.I.toNat).toNat = (s.reg x).toNat / 100 ∧
      (t.byteAt (s.I.toNat + 1)).toNat = (s.reg x).toNat / 10 % 10 ∧
      (t.byteAt (s.I.toNat + 2)).toNat = (s.reg x).toNat % 10 ∧
      (∀ a, ¬ storesTo (.ldBVx x) s a → t.byteAt a = s.byteAt a) ∧ t = (s.setMem t.mem).setPc t.pc) ∧
  (∀ (s : State) (x : Reg), 0xFFF < s.I.toNat + 2 ∨ 0xFFF < s.pc.toNat + 2 →
    exec (.ldBVx x) s = .fault .invalidOperand)

/-- R100. -/
def Obligations.StoreRegisters : Prop :=
  DecodesRow 0xF055 0xF0FF (fun f => .ldMemVx f.regX) ∧
  (∀ (s : State) (x : Reg), s.mem.wf = true → s.I.toNat + x.val ≤ 0xFFF → s.pc.toNat + 2 ≤ 0xFFF →
    ∃ t, exec (.ldMemVx x) s = .next t ∧ t.pc.toNat = s.pc.toNat + 2 ∧
      (∀ r : Reg, r.val ≤ x.val → t.byteAt (s.I.toNat + r.val) = s.reg r) ∧
      (∀ a, ¬ storesTo (.ldMemVx x) s a → t.byteAt a = s.byteAt a) ∧ t = (s.setMem t.mem).setPc t.pc) ∧
  (∀ (s : State) (x : Reg), 0xFFF < s.I.toNat + x.val ∨ 0xFFF < s.pc.toNat + 2 →
    exec (.ldMemVx x) s = .fault .invalidOperand)

/-- R101. -/
def Obligations.LoadRegisters : Prop :=
  DecodesRow 0xF065 0xF0FF (fun f => .ldVxMem f.regX) ∧
  (∀ (s : State) (x : Reg), s.I.toNat + x.val ≤ 0xFFF → s.pc.toNat + 2 ≤ 0xFFF →
    ∃ t, exec (.ldVxMem x) s = .next t ∧ t.pc.toNat = s.pc.toNat + 2 ∧
      (∀ r : Reg, r.val ≤ x.val → t.reg r = s.byteAt (s.I.toNat + r.val)) ∧
      (∀ r : Reg, x.val < r.val → t.reg r = s.reg r) ∧ t = ({ s with V := t.V } : State).setPc t.pc) ∧
  (∀ (s : State) (x : Reg), 0xFFF < s.I.toNat + x.val ∨ 0xFFF < s.pc.toNat + 2 →
    exec (.ldVxMem x) s = .fault .invalidOperand)

/-- R100 with R101: registers stored and loaded back are as they were, whatever the register file held in between. -/
def Obligations.LoadAfterStoreRestoresRegisters : Prop :=
  ∀ (s : State) (x : Reg) (between : RegFile), s.mem.wf = true → s.I.toNat + x.val ≤ 0xFFF → s.pc.toNat + 4 ≤ 0xFFF →
    ∃ t u, exec (.ldMemVx x) s = .next t ∧ exec (.ldVxMem x) { t with V := between } = .next u ∧
      (∀ r : Reg, r.val ≤ x.val → u.reg r = s.reg r) ∧ (∀ r : Reg, x.val < r.val → u.reg r = between.get r)

/-- R35: the checked accesses, and what a write does to later reads. -/
def Obligations.CheckedMemoryAccess : Prop :=
  (∀ (s : State) (a : Nat) (v : Byte), 0xFFF < a →
    memRead a s = .error .invalidOperand ∧ memWrite a v s = .error .invalidOperand) ∧
  (∀ (s : State) (a : Nat) (v : Byte), s.mem.wf = true → a ≤ 0xFFF →
    ∃ t, memWrite a v s = .ok t ∧ t.mem.wf = true ∧ memRead a t = .ok v ∧
      (∀ b, b ≠ a → memRead b t = memRead b s) ∧ t = s.setMem t.mem)

/-! ### Keys and timers -/

/-- R104, R106, R107. -/
def Obligations.ReadAndSetTimers : Prop :=
  DecodesRow 0xF007 0xF0FF (fun f => .ldVxDT f.regX) ∧ DecodesRow 0xF015 0xF0FF (fun f => .ldDTVx f.regX) ∧
  DecodesRow 0xF018 0xF0FF (fun f => .ldSTVx f.regX) ∧
  (∀ (s : State) (x : Reg), s.pc.toNat + 2 ≤ 0xFFF →
    (∃ t, exec (.ldVxDT x) s = .next t ∧ t.reg x = s.DT ∧ t.pc.toNat = s.pc.toNat + 2 ∧
      t = (s.setReg x (t.reg x)).setPc t.pc) ∧
    (∃ t, exec (.ldDTVx x) s = .next t ∧ t.DT = s.reg x ∧ t.pc.toNat = s.pc.toNat + 2 ∧
      t = (s.setDT t.DT).setPc t.pc) ∧
    (∃ t, exec (.ldSTVx x) s = .next t ∧ t.ST = s.reg x ∧ t.pc.toNat = s.pc.toNat + 2 ∧
      t = (s.setST t.ST).setPc t.pc ∧ (soundActive t = true ↔ s.reg x ≠ 0))) ∧
  (∀ (s : State) (x : Reg), 0xFFF < s.pc.toNat + 2 →
    ∀ i ∈ [Instr.ldVxDT x, .ldDTVx x, .ldSTVx x], exec i s = .fault .invalidOperand)

/-- R105, case by case. -/
def Obligations.KeyWait : Prop :=
  DecodesRow 0xF00A 0xF0FF (fun f => .ldVxK f.regX) ∧
  (∀ (s : State) (x : Reg), s.kwait = false → exec (.ldVxK x) s = .next { s with kwait := true, klatch := none }) ∧
  (∀ (s : State) (x : Reg), s.kwait = true → s.klatch = none → exec (.ldVxK x) s = .next s) ∧
  (∀ (s : State) (x : Reg) (k : Key), s.kwait = true → s.klatch = some k → s.pc.toNat + 2 ≤ 0xFFF →
    ∃ t, exec (.ldVxK x) s = .next t ∧ (t.reg x).toNat = k.val ∧ t.kwait = false ∧ t.klatch = none ∧
      t.pc.toNat = s.pc.toNat + 2 ∧ t = ((s.setReg x (t.reg x)).setWait false none).setPc t.pc) ∧
  (∀ (s : State) (x : Reg) (k : Key), s.kwait = true → s.klatch = some k → 0xFFF < s.pc.toNat + 2 →
    exec (.ldVxK x) s = .fault .invalidOperand)

/-- E9 of 95_test_vectors.md: `FX0A` keeps `pc` over any number of steps until `set_key` makes an edge; the next step
completes it with the key of the first edge, also where a later event releases that key or presses another. -/
def Obligations.KeyWaitEndsAtTheFirstEdge : Prop :=
  ∀ (s : State) (op : Word) (x : Reg) (k j : Key) (p : Bool), fetch s = .ok op → decodeWord op = some (.ldVxK x) →
    s.kwait = false → s.pc.toNat + 2 ≤ 0xFFF → s.keyDown k = false →
    ∃ w, step s = .next w ∧ w.pc = s.pc ∧ (∀ n : Nat, Sys2Proof.core.run n w = .next w) ∧
      ∃ t, step (pressKey j p (pressKey k true w)) = .next t ∧ (t.reg x).toNat = k.val ∧
        t.pc.toNat = s.pc.toNat + 2 ∧ t.kwait = false

/-! ### Host interface -/

/-- R29, R128, R130: what reset leaves, from any state and in any configuration. Two clauses rest on log 3: that an
address above `0xFFF`, where no byte exists, reads as zero through `byteAt` (DESIGN CHOICE), and that `State.reset` is
the reset of the default configuration, whose glyph bytes are PRESUMED. -/
def Obligations.ResetState : Prop :=
  (∀ s : State,
    (∀ a, (h : fontBase ≤ a ∧ a < fontBase + fontSize) →
      (reset s).byteAt a = s.cfg.font.get ⟨a - fontBase, by omega⟩) ∧
    (∀ a, ¬ (fontBase ≤ a ∧ a < fontBase + fontSize) → (reset s).byteAt a = 0) ∧
    (∀ r, (reset s).reg r = 0) ∧ (reset s).I = 0 ∧ (reset s).pc = 0x200 ∧ (reset s).stack = [] ∧
    (reset s).DT = 0 ∧ (reset s).ST = 0 ∧ (∀ py px, Display.pixel (reset s).disp py px = false) ∧
    (∀ k, (reset s).keyDown k = false) ∧ (reset s).kwait = false ∧ (reset s).klatch = none ∧ (reset s).cfg = s.cfg) ∧
  State.reset = State.resetWith Config.default

/-- R131, R132: what `load` writes, the size it refuses, and that a second or late `load` has no transition. That a
failing `load` leaves the phase `constructed`, so that the host may load again, is the model's inference (log 5,
DEDUCED). -/
def Obligations.LoadImage : Prop :=
  (∀ (s : State) (p : List Byte), s.mem.wf = true → p.length ≤ 3584 →
    ∃ t, load p s = .ok t ∧ t = s.setMem t.mem ∧
      (∀ i, (h : i < p.length) → t.byteAt (0x200 + i) = p[i]) ∧
      (∀ a, (a < 0x200 ∨ 0x200 + p.length ≤ a) → t.byteAt a = s.byteAt a)) ∧
  (∀ (s : State) (p : List Byte), 3585 ≤ p.length → load p s = .error .imageTooLarge ∧
    transact (.load p) ⟨s, .constructed⟩ = some (.loadFailed .imageTooLarge, ⟨s, .constructed⟩)) ∧
  (∀ (s : State) (p : List Byte),
    transact (.load p) ⟨s, .loaded⟩ = none ∧ transact (.load p) ⟨s, .running⟩ = none)

/-- R121: both timers toward zero and never below it, and nothing else. -/
def Obligations.TimerTick : Prop :=
  ∀ s : State, (tickTimers s).DT.toNat = s.DT.toNat - 1 ∧ (tickTimers s).ST.toNat = s.ST.toNat - 1 ∧
    tickTimers s = (s.setDT (tickTimers s).DT).setST (tickTimers s).ST

/-- R119: the key's new state, the latch on a first edge in a wait, no transition for another index. -/
def Obligations.SetKey : Prop :=
  (∀ (s : State) (k : Key) (p : Bool), ∃ t, setKey k.val p s = some t ∧ t.keyDown k = p ∧
    (∀ j, j ≠ k → t.keyDown j = s.keyDown j) ∧
    (p = true ∧ s.keyDown k = false ∧ s.kwait = true ∧ s.klatch = none → t.klatch = some k) ∧
    (¬ (p = true ∧ s.keyDown k = false ∧ s.kwait = true ∧ s.klatch = none) → t.klatch = s.klatch) ∧
    t = { s with key := t.key, klatch := t.klatch }) ∧
  (∀ (s : State) (k : Nat) (p : Bool), 16 ≤ k → setKey k p s = none)

/-- R120: the observations return the display and `ST > 0`, in every phase, and change nothing. -/
def Obligations.ObservationsChangeNothing : Prop :=
  ∀ c : Session, transact .display c = some (.grid c.core.disp, c) ∧
    (0 < c.core.ST.toNat → transact .soundActive c = some (.sound true, c)) ∧
    (c.core.ST.toNat = 0 → transact .soundActive c = some (.sound false, c))
end

