-- ==== Sys2Proof/Laws/Decode.lean ====
section
/-! SUPPORT. What the fields of a word are: of a word built from fields (R53), and the word rebuilt from its fields
(R50). With these no proof about an encoding unfolds a bit extraction again. -/

namespace Sys2Proof

/-! ### The fields of an encoded word (R50, R53) -/

theorem fields_wordXYN (op : Nibble) (x y : Reg) (n : Nibble) :
    fields (wordXYN op x y n) = ⟨op, regField x, regField y, n, regField y ++ n, regField x ++ regField y ++ n⟩ := by
  simp only [fields, wordXYN, Fields.mk.injEq]
  refine ⟨?_, ?_, ?_, ?_, ?_, ?_⟩ <;>
  · ext i hi
    simp only [← BitVec.getLsbD_eq_getElem, BitVec.getLsbD_extractLsb', BitVec.getLsbD_append]
    grind

theorem fields_wordXNN (op : Nibble) (x : Reg) (nn : Byte) :
    fields (wordXNN op x nn) =
      ⟨op, regField x, nn.extractLsb' 4 4, nn.extractLsb' 0 4, nn, regField x ++ nn⟩ := by
  simp only [fields, wordXNN, Fields.mk.injEq]
  refine ⟨?_, ?_, ?_, ?_, ?_, ?_⟩ <;>
  · ext i hi
    simp only [← BitVec.getLsbD_eq_getElem, BitVec.getLsbD_extractLsb', BitVec.getLsbD_append]
    grind

theorem fields_wordX (op : Nibble) (x : Reg) (function : Byte) :
    fields (wordX op x function) =
      ⟨op, regField x, function.extractLsb' 4 4, function.extractLsb' 0 4, function, regField x ++ function⟩ :=
  fields_wordXNN op x function

theorem fields_wordA12 (op : Nibble) (nnn : Addr) :
    fields (wordA12 op nnn) =
      ⟨op, nnn.extractLsb' 8 4, nnn.extractLsb' 4 4, nnn.extractLsb' 0 4, nnn.extractLsb' 0 8, nnn⟩ := by
  simp only [fields, wordA12, Fields.mk.injEq]
  refine ⟨?_, ?_, ?_, ?_, ?_, ?_⟩ <;>
  · ext i hi
    simp only [← BitVec.getLsbD_eq_getElem, BitVec.getLsbD_extractLsb', BitVec.getLsbD_append]
    grind

/-! ### A word from its fields (R50) -/

theorem word_eq_nibbles (op : Word) : (fields op).nib1 ++ (fields op).x ++ (fields op).y ++ (fields op).n = op := by
  ext i hi
  simp only [fields, ← BitVec.getLsbD_eq_getElem, BitVec.getLsbD_extractLsb', BitVec.getLsbD_append]
  grind

theorem word_eq_nib_x_nn (op : Word) : (fields op).nib1 ++ (fields op).x ++ (fields op).nn = op := by
  ext i hi
  simp only [fields, ← BitVec.getLsbD_eq_getElem, BitVec.getLsbD_extractLsb', BitVec.getLsbD_append]
  grind

theorem word_eq_nib_nnn (op : Word) : (fields op).nib1 ++ (fields op).nnn = op := by
  ext i hi
  simp only [fields, ← BitVec.getLsbD_eq_getElem, BitVec.getLsbD_extractLsb', BitVec.getLsbD_append]
  grind

/-! ### Registers as fields -/

@[simp] theorem toFin_regField (r : Reg) : (regField r).toFin = r := rfl

@[simp] theorem regField_toFin (n : Nibble) : regField n.toFin = n := rfl

@[simp] theorem regField_regX (f : Fields) : regField f.regX = f.x := rfl

@[simp] theorem regField_regY (f : Fields) : regField f.regY = f.y := rfl

/-! ### Bytes (R39) -/

theorem wordBytes_append (op : Word) : ∃ hi lo : Byte, wordBytes op = [hi, lo] ∧ hi ++ lo = op := by
  refine ⟨_, _, rfl, ?_⟩
  ext i hi
  simp only [← BitVec.getLsbD_eq_getElem, BitVec.getLsbD_extractLsb', BitVec.getLsbD_append]
  grind

end Sys2Proof
end

