-- ==== Sys2Proof/Laws/PerInstr.lean ====
section
/-! SUPPORT. Statements made of every instruction as syntax, one lemma per constructor: `RawOperands` says that its
operands, as the plain numbers an assembler has (R60), pass the check of WellFormed and give the instruction back;
`KindOfWord` says that its word is of its kind (R57). -/

namespace Sys2Proof.Laws

/-- The operands of an instruction are within its fields, and reading them as plain numbers gives it back. -/
def RawOperands.Statement (i : Instr) : Prop := i.wellFormed = true ∧ i.raw.instr? = some i

/-- The decode unit gives an instruction's word the instruction's kind, which has a format (R53, R57). -/
def KindOfWord.Statement (i : Instr) : Prop := classify (encode i) = i.kind ∧ i.kind.format.isSome = true

/-! ### One lemma per format (R53) -/

theorem regIndexOk_val (r : Reg) : regIndexOk r.val = true := decide_eq_true r.isLt

theorem instr?_of_wellFormed {r : RawInstr} (h : r.wellFormed = true) :
    r.instr? = r.kind.build (Fin.ofNat numV r.x) (Fin.ofNat numV r.y) (.ofNat 4 r.n) (.ofNat 8 r.nn) (.ofNat 12 r.nnn) :=
  if_pos h

theorem rawOperands_of {i : Instr} (h : i.raw.wellFormed = true)
    (hb : i.raw.kind.build (Fin.ofNat numV i.raw.x) (Fin.ofNat numV i.raw.y) (.ofNat 4 i.raw.n) (.ofNat 8 i.raw.nn)
      (.ofNat 12 i.raw.nnn) = some i) : RawOperands.Statement i :=
  ⟨h, (instr?_of_wellFormed h).trans hb⟩

theorem rawOperands_none {i : Instr} {k : Kind} (hr : i.raw = { kind := k }) (hk : k.format = some .NONE)
    (hb : k.build 0 0 0 0 0 = some i) : RawOperands.Statement i := by
  refine rawOperands_of ?_ ?_ <;> rw [hr]
  · simp only [RawInstr.wellFormed, hk]
  · exact hb

theorem rawOperands_a12 {i : Instr} {k : Kind} {nnn : Addr} (hr : i.raw = { kind := k, nnn := nnn.toNat })
    (hk : k.format = some .A12) (hb : k.build 0 0 0 0 nnn = some i) : RawOperands.Statement i := by
  refine rawOperands_of ?_ ?_ <;> rw [hr]
  · simp only [RawInstr.wellFormed, hk]
    exact decide_eq_true (Nat.le_of_lt_succ nnn.isLt)
  · simpa using hb

theorem rawOperands_xnn {i : Instr} {k : Kind} {x : Reg} {nn : Byte}
    (hr : i.raw = { kind := k, x := x.val, nn := nn.toNat }) (hk : k.format = some .XNN)
    (hb : k.build x 0 0 nn 0 = some i) : RawOperands.Statement i := by
  refine rawOperands_of ?_ ?_ <;> rw [hr]
  · simp only [RawInstr.wellFormed, hk, regIndexOk_val, Bool.true_and]
    exact decide_eq_true (Nat.le_of_lt_succ nn.isLt)
  · simpa using hb

theorem rawOperands_xy {i : Instr} {k : Kind} {x y : Reg} (hr : i.raw = { kind := k, x := x.val, y := y.val })
    (hk : k.format = some .XY) (hb : k.build x y 0 0 0 = some i) : RawOperands.Statement i := by
  refine rawOperands_of ?_ ?_ <;> rw [hr]
  · simp only [RawInstr.wellFormed, hk, regIndexOk_val, Bool.true_and]
  · simpa using hb

theorem rawOperands_xyn {i : Instr} {k : Kind} {x y : Reg} {n : Nibble}
    (hr : i.raw = { kind := k, x := x.val, y := y.val, n := n.toNat }) (hk : k.format = some .XYN)
    (hb : k.build x y n 0 0 = some i) : RawOperands.Statement i := by
  refine rawOperands_of ?_ ?_ <;> rw [hr]
  · simp only [RawInstr.wellFormed, hk, regIndexOk_val, Bool.true_and]
    exact decide_eq_true (Nat.le_of_lt_succ n.isLt)
  · simpa using hb

theorem rawOperands_x {i : Instr} {k : Kind} {x : Reg} (hr : i.raw = { kind := k, x := x.val })
    (hk : k.format = some .X) (hb : k.build x 0 0 0 0 = some i) : RawOperands.Statement i := by
  refine rawOperands_of ?_ ?_ <;> rw [hr]
  · simp only [RawInstr.wellFormed, hk, regIndexOk_val]
  · simpa using hb

theorem kindOfWord_of {i : Instr} {f : Fields} (hf : fields (encode i) = f) (hk : classifyFields f = i.kind)
    (hs : i.kind.format.isSome = true) : KindOfWord.Statement i :=
  ⟨(congrArg classifyFields hf).trans hk, hs⟩

/-! ### The families, constructor by constructor -/

theorem RawOperands.cls : RawOperands.Statement .cls := rawOperands_none rfl rfl rfl
theorem RawOperands.ret : RawOperands.Statement .ret := rawOperands_none rfl rfl rfl
theorem RawOperands.jp (nnn : Addr) : RawOperands.Statement (.jp nnn) := rawOperands_a12 rfl rfl rfl
theorem RawOperands.call (nnn : Addr) : RawOperands.Statement (.call nnn) := rawOperands_a12 rfl rfl rfl
theorem RawOperands.seImm (x : Reg) (nn : Byte) : RawOperands.Statement (.seImm x nn) := rawOperands_xnn rfl rfl rfl
theorem RawOperands.sneImm (x : Reg) (nn : Byte) : RawOperands.Statement (.sneImm x nn) := rawOperands_xnn rfl rfl rfl
theorem RawOperands.seReg (x y : Reg) : RawOperands.Statement (.seReg x y) := rawOperands_xy rfl rfl rfl
theorem RawOperands.ldImm (x : Reg) (nn : Byte) : RawOperands.Statement (.ldImm x nn) := rawOperands_xnn rfl rfl rfl
theorem RawOperands.addImm (x : Reg) (nn : Byte) : RawOperands.Statement (.addImm x nn) := rawOperands_xnn rfl rfl rfl
theorem RawOperands.ldReg (x y : Reg) : RawOperands.Statement (.ldReg x y) := rawOperands_xy rfl rfl rfl
theorem RawOperands.orReg (x y : Reg) : RawOperands.Statement (.orReg x y) := rawOperands_xy rfl rfl rfl
theorem RawOperands.andReg (x y : Reg) : RawOperands.Statement (.andReg x y) := rawOperands_xy rfl rfl rfl
theorem RawOperands.xorReg (x y : Reg) : RawOperands.Statement (.xorReg x y) := rawOperands_xy rfl rfl rfl
theorem RawOperands.addReg (x y : Reg) : RawOperands.Statement (.addReg x y) := rawOperands_xy rfl rfl rfl
theorem RawOperands.sub (x y : Reg) : RawOperands.Statement (.sub x y) := rawOperands_xy rfl rfl rfl
theorem RawOperands.shr (x y : Reg) : RawOperands.Statement (.shr x y) := rawOperands_xy rfl rfl rfl
theorem RawOperands.subn (x y : Reg) : RawOperands.Statement (.subn x y) := rawOperands_xy rfl rfl rfl
theorem RawOperands.shl (x y : Reg) : RawOperands.Statement (.shl x y) := rawOperands_xy rfl rfl rfl
theorem RawOperands.sneReg (x y : Reg) : RawOperands.Statement (.sneReg x y) := rawOperands_xy rfl rfl rfl
theorem RawOperands.ldI (nnn : Addr) : RawOperands.Statement (.ldI nnn) := rawOperands_a12 rfl rfl rfl
theorem RawOperands.jpV0 (nnn : Addr) : RawOperands.Statement (.jpV0 nnn) := rawOperands_a12 rfl rfl rfl
theorem RawOperands.rnd (x : Reg) (nn : Byte) : RawOperands.Statement (.rnd x nn) := rawOperands_xnn rfl rfl rfl
theorem RawOperands.drw (x y : Reg) (n : Nibble) : RawOperands.Statement (.drw x y n) := rawOperands_xyn rfl rfl rfl
theorem RawOperands.skp (x : Reg) : RawOperands.Statement (.skp x) := rawOperands_x rfl rfl rfl
theorem RawOperands.sknp (x : Reg) : RawOperands.Statement (.sknp x) := rawOperands_x rfl rfl rfl
theorem RawOperands.ldVxDT (x : Reg) : RawOperands.Statement (.ldVxDT x) := rawOperands_x rfl rfl rfl
theorem RawOperands.ldVxK (x : Reg) : RawOperands.Statement (.ldVxK x) := rawOperands_x rfl rfl rfl
theorem RawOperands.ldDTVx (x : Reg) : RawOperands.Statement (.ldDTVx x) := rawOperands_x rfl rfl rfl
theorem RawOperands.ldSTVx (x : Reg) : RawOperands.Statement (.ldSTVx x) := rawOperands_x rfl rfl rfl
theorem RawOperands.addIVx (x : Reg) : RawOperands.Statement (.addIVx x) := rawOperands_x rfl rfl rfl
theorem RawOperands.ldFVx (x : Reg) : RawOperands.Statement (.ldFVx x) := rawOperands_x rfl rfl rfl
theorem RawOperands.ldBVx (x : Reg) : RawOperands.Statement (.ldBVx x) := rawOperands_x rfl rfl rfl
theorem RawOperands.ldMemVx (x : Reg) : RawOperands.Statement (.ldMemVx x) := rawOperands_x rfl rfl rfl
theorem RawOperands.ldVxMem (x : Reg) : RawOperands.Statement (.ldVxMem x) := rawOperands_x rfl rfl rfl

theorem KindOfWord.cls : KindOfWord.Statement .cls := kindOfWord_of rfl rfl rfl
theorem KindOfWord.ret : KindOfWord.Statement .ret := kindOfWord_of rfl rfl rfl
theorem KindOfWord.jp (nnn : Addr) : KindOfWord.Statement (.jp nnn) := kindOfWord_of (fields_wordA12 _ _) rfl rfl
theorem KindOfWord.call (nnn : Addr) : KindOfWord.Statement (.call nnn) := kindOfWord_of (fields_wordA12 _ _) rfl rfl
theorem KindOfWord.seImm (x : Reg) (nn : Byte) : KindOfWord.Statement (.seImm x nn) :=
  kindOfWord_of (fields_wordXNN _ _ _) rfl rfl
theorem KindOfWord.sneImm (x : Reg) (nn : Byte) : KindOfWord.Statement (.sneImm x nn) :=
  kindOfWord_of (fields_wordXNN _ _ _) rfl rfl
theorem KindOfWord.seReg (x y : Reg) : KindOfWord.Statement (.seReg x y) :=
  kindOfWord_of (fields_wordXYN _ _ _ _) rfl rfl
theorem KindOfWord.ldImm (x : Reg) (nn : Byte) : KindOfWord.Statement (.ldImm x nn) :=
  kindOfWord_of (fields_wordXNN _ _ _) rfl rfl
theorem KindOfWord.addImm (x : Reg) (nn : Byte) : KindOfWord.Statement (.addImm x nn) :=
  kindOfWord_of (fields_wordXNN _ _ _) rfl rfl
theorem KindOfWord.ldReg (x y : Reg) : KindOfWord.Statement (.ldReg x y) :=
  kindOfWord_of (fields_wordXYN _ _ _ _) rfl rfl
theorem KindOfWord.orReg (x y : Reg) : KindOfWord.Statement (.orReg x y) :=
  kindOfWord_of (fields_wordXYN _ _ _ _) rfl rfl
theorem KindOfWord.andReg (x y : Reg) : KindOfWord.Statement (.andReg x y) :=
  kindOfWord_of (fields_wordXYN _ _ _ _) rfl rfl
theorem KindOfWord.xorReg (x y : Reg) : KindOfWord.Statement (.xorReg x y) :=
  kindOfWord_of (fields_wordXYN _ _ _ _) rfl rfl
theorem KindOfWord.addReg (x y : Reg) : KindOfWord.Statement (.addReg x y) :=
  kindOfWord_of (fields_wordXYN _ _ _ _) rfl rfl
theorem KindOfWord.sub (x y : Reg) : KindOfWord.Statement (.sub x y) := kindOfWord_of (fields_wordXYN _ _ _ _) rfl rfl
theorem KindOfWord.shr (x y : Reg) : KindOfWord.Statement (.shr x y) := kindOfWord_of (fields_wordXYN _ _ _ _) rfl rfl
theorem KindOfWord.subn (x y : Reg) : KindOfWord.Statement (.subn x y) := kindOfWord_of (fields_wordXYN _ _ _ _) rfl rfl
theorem KindOfWord.shl (x y : Reg) : KindOfWord.Statement (.shl x y) := kindOfWord_of (fields_wordXYN _ _ _ _) rfl rfl
theorem KindOfWord.sneReg (x y : Reg) : KindOfWord.Statement (.sneReg x y) :=
  kindOfWord_of (fields_wordXYN _ _ _ _) rfl rfl
theorem KindOfWord.ldI (nnn : Addr) : KindOfWord.Statement (.ldI nnn) := kindOfWord_of (fields_wordA12 _ _) rfl rfl
theorem KindOfWord.jpV0 (nnn : Addr) : KindOfWord.Statement (.jpV0 nnn) := kindOfWord_of (fields_wordA12 _ _) rfl rfl
theorem KindOfWord.rnd (x : Reg) (nn : Byte) : KindOfWord.Statement (.rnd x nn) :=
  kindOfWord_of (fields_wordXNN _ _ _) rfl rfl
theorem KindOfWord.drw (x y : Reg) (n : Nibble) : KindOfWord.Statement (.drw x y n) :=
  kindOfWord_of (fields_wordXYN _ _ _ _) rfl rfl
theorem KindOfWord.skp (x : Reg) : KindOfWord.Statement (.skp x) := kindOfWord_of (fields_wordX _ _ _) rfl rfl
theorem KindOfWord.sknp (x : Reg) : KindOfWord.Statement (.sknp x) := kindOfWord_of (fields_wordX _ _ _) rfl rfl
theorem KindOfWord.ldVxDT (x : Reg) : KindOfWord.Statement (.ldVxDT x) := kindOfWord_of (fields_wordX _ _ _) rfl rfl
theorem KindOfWord.ldVxK (x : Reg) : KindOfWord.Statement (.ldVxK x) := kindOfWord_of (fields_wordX _ _ _) rfl rfl
theorem KindOfWord.ldDTVx (x : Reg) : KindOfWord.Statement (.ldDTVx x) := kindOfWord_of (fields_wordX _ _ _) rfl rfl
theorem KindOfWord.ldSTVx (x : Reg) : KindOfWord.Statement (.ldSTVx x) := kindOfWord_of (fields_wordX _ _ _) rfl rfl
theorem KindOfWord.addIVx (x : Reg) : KindOfWord.Statement (.addIVx x) := kindOfWord_of (fields_wordX _ _ _) rfl rfl
theorem KindOfWord.ldFVx (x : Reg) : KindOfWord.Statement (.ldFVx x) := kindOfWord_of (fields_wordX _ _ _) rfl rfl
theorem KindOfWord.ldBVx (x : Reg) : KindOfWord.Statement (.ldBVx x) := kindOfWord_of (fields_wordX _ _ _) rfl rfl
theorem KindOfWord.ldMemVx (x : Reg) : KindOfWord.Statement (.ldMemVx x) := kindOfWord_of (fields_wordX _ _ _) rfl rfl
theorem KindOfWord.ldVxMem (x : Reg) : KindOfWord.Statement (.ldVxMem x) := kindOfWord_of (fields_wordX _ _ _) rfl rfl

end Sys2Proof.Laws
end

