-- ==== Sys2Proof/Laws/Assembly.lean ====
section
/-! SUPPORT. Digits, numbers and registers read back as they were written, and reading a line by its pieces. -/

namespace Sys2Proof

/-! ### Digits -/

theorem digitChar_facts : ∀ d : Fin 16, digitChar d.val ≠ ',' ∧ digitChar d.val ≠ ' ' ∧ digitChar d.val ≠ 'I' ∧
    digitChar d.val ≠ 'T' ∧ digitValue? (digitChar d.val) = some d.val := by decide

theorem digitChar_ne_comma {d : Nat} (h : d < 16) : digitChar d ≠ ',' := (digitChar_facts ⟨d, h⟩).1

theorem digitChar_ne_space {d : Nat} (h : d < 16) : digitChar d ≠ ' ' := (digitChar_facts ⟨d, h⟩).2.1

theorem digitValue?_digitChar {d : Nat} (h : d < 16) : digitValue? (digitChar d) = some d :=
  (digitChar_facts ⟨d, h⟩).2.2.2.2

/-! ### Numbers -/

theorem mem_hexDigits {k n : Nat} {c : Char} (h : c ∈ hexDigits k n) : ∃ d < 16, c = digitChar d := by
  induction k with
  | zero => cases h
  | succ k ih =>
    rcases List.mem_cons.1 h with rfl | h
    · exact ⟨_, Nat.mod_lt _ (by decide), rfl⟩
    · exact ih h

/-- The digits of a number read back as what stands before them followed by the number. -/
theorem readDigits_hexDigits (k n acc : Nat) :
    readDigits 16 acc (hexDigits k n) = some (acc * 16 ^ k + n % 16 ^ k) := by
  induction k generalizing acc with
  | zero => simp [hexDigits, readDigits, Nat.mod_one]
  | succ k ih =>
    have hd : n / 16 ^ k % 16 < 16 := Nat.mod_lt _ (by decide)
    rw [hexDigits, readDigits, digitValue?_digitChar hd]
    simp only [hd, if_true]
    rw [ih, Nat.pow_succ, Nat.mod_mul]
    congr 1
    ring

theorem readNumber_hexText {k n : Nat} (hk : 0 < k) (h : n < 16 ^ k) : readNumber (hexText k n) = some n := by
  obtain ⟨k, rfl⟩ : ∃ j, k = j + 1 := ⟨k - 1, by omega⟩
  have := readDigits_hexDigits (k + 1) n 0
  rw [Nat.zero_mul, Nat.zero_add, Nat.mod_eq_of_lt h] at this
  exact this

/-! ### Operands -/

/-- A piece of a line: without commas, and without spaces around it or in it. -/
def Plain (t : Text) : Prop := ∀ c ∈ t, c ≠ ',' ∧ c ≠ ' '

theorem plain_hexText (k n : Nat) : Plain (hexText k n) := by
  intro c hc
  simp only [hexText, List.mem_cons] at hc
  rcases hc with rfl | rfl | hc
  · decide
  · decide
  · obtain ⟨d, hd, rfl⟩ := mem_hexDigits hc
    exact ⟨digitChar_ne_comma hd, digitChar_ne_space hd⟩

/-- Every operand's text is a plain piece, not empty. -/
theorem AsmOperand.text_plain (o : AsmOperand) : Plain o.text ∧ o.text ≠ [] := by
  cases o
  case reg r =>
    refine ⟨fun c hc => ?_, nofun⟩
    simp only [AsmOperand.text, regText, List.mem_cons, List.not_mem_nil, or_false] at hc
    rcases hc with rfl | rfl
    · decide
    · exact ⟨digitChar_ne_comma r.isLt, digitChar_ne_space r.isLt⟩
  case byte => exact ⟨plain_hexText _ _, nofun⟩
  case addr => exact ⟨plain_hexText _ _, nofun⟩
  case nibble => exact ⟨plain_hexText _ _, nofun⟩
  all_goals exact ⟨by simp [Plain, AsmOperand.text], nofun⟩

/-- An operand with the width of its number forgotten. -/
def AsmOperand.raw : AsmOperand → RawOperand
  | .reg r => .reg r.val
  | .byte nn => .num nn.toNat
  | .addr nnn => .num nnn.toNat
  | .nibble n => .num n.toNat
  | .indexReg => .indexReg
  | .delayTimer => .delayTimer
  | .soundTimer => .soundTimer
  | .keyWait => .keyWait
  | .fontGlyph => .fontGlyph
  | .decimalDigits => .decimalDigits
  | .memAtI => .memAtI

/-- An operand reads back as it was written. -/
theorem readOperand_text (o : AsmOperand) : readOperand o.text = some o.raw := by
  cases o
  case reg r =>
    simp only [AsmOperand.text, regText, readOperand, digitValue?_digitChar r.isLt]
    rfl
  case byte nn =>
    have h := readNumber_hexText (k := 2) (by decide) nn.isLt
    exact congrArg (Option.map RawOperand.num) h
  case addr nnn =>
    have h := readNumber_hexText (k := 3) (by decide) nnn.isLt
    exact congrArg (Option.map RawOperand.num) h
  case nibble n =>
    have h := readNumber_hexText (k := 1) (by decide) n.isLt
    exact congrArg (Option.map RawOperand.num) h
  all_goals rfl

/-! ### Pieces of a line -/

theorem splitCommas_plain {t : Text} (h : Plain t) : splitCommas t = [t] := by
  induction t with
  | nil => rfl
  | cons c cs ih =>
    have hc := (h c List.mem_cons_self).1
    rw [splitCommas, if_neg hc, ih fun d hd => h d (List.mem_cons_of_mem _ hd)]

theorem splitCommas_append {t u : Text} (h : Plain t) : splitCommas (t ++ ',' :: u) = t :: splitCommas u := by
  induction t with
  | nil => simp [splitCommas]
  | cons c cs ih =>
    have hc := (h c List.mem_cons_self).1
    rw [List.cons_append, splitCommas, if_neg hc, ih fun d hd => h d (List.mem_cons_of_mem _ hd)]

theorem splitCommas_space {u t : Text} {ts : List Text} (h : splitCommas u = t :: ts) :
    splitCommas (' ' :: u) = (' ' :: t) :: ts := by
  rw [splitCommas, if_neg (by decide), h]

theorem dropSpaces_plain {t : Text} (h : Plain t) : t.dropWhile (· == ' ') = t := by
  cases t with
  | nil => rfl
  | cons c cs => simp [(h c List.mem_cons_self).2]

theorem trimSpaces_plain {t : Text} (h : Plain t) : trimSpaces t = t := by
  rw [trimSpaces, dropSpaces_plain h, dropSpaces_plain fun c hc => h c (List.mem_reverse.1 hc), List.reverse_reverse]

theorem trimSpaces_space {t : Text} (h : Plain t) : trimSpaces (' ' :: t) = t := trimSpaces_plain h

/-! ### Lines -/

/-- The pieces of an operand list: the first as it is, the others after a space. -/
theorem splitCommas_operandsText (o : AsmOperand) (os : List AsmOperand) :
    splitCommas (operandsText (o :: os)) = o.text :: os.map fun p => ' ' :: p.text := by
  induction os generalizing o with
  | nil => exact splitCommas_plain o.text_plain.1
  | cons p os ih =>
    rw [operandsText, splitCommas_append o.text_plain.1, splitCommas_space (ih p), List.map_cons]

theorem mapM_some {α β : Type} {f : α → Option β} {g : α → β} {l : List α} (h : ∀ a ∈ l, f a = some (g a)) :
    l.mapM f = some (l.map g) := by
  induction l with
  | nil => rfl
  | cons a l ih =>
    rw [List.mapM_cons, h a List.mem_cons_self, ih fun b hb => h b (List.mem_cons_of_mem _ hb)]
    rfl

theorem operandsText_ne_nil (o : AsmOperand) (os : List AsmOperand) :
    ∃ c cs, operandsText (o :: os) = c :: cs ∧ c ≠ ' ' := by
  obtain ⟨h, h0⟩ := o.text_plain
  cases ht : o.text with
  | nil => exact absurd ht h0
  | cons c cs =>
    have hc : c ≠ ' ' := (h c (ht ▸ List.mem_cons_self)).2
    cases os with
    | nil => exact ⟨c, cs, ht, hc⟩
    | cons p os => exact ⟨c, _, by rw [operandsText, ht, List.cons_append], hc⟩

theorem trimSpaces_ne_nil {c : Char} {cs : Text} (hc : c ≠ ' ') : trimSpaces (' ' :: c :: cs) ≠ [] := by
  intro h
  have : ∀ x ∈ (c :: cs).reverse, (x == ' ') = true := by
    have h' := List.reverse_eq_nil_iff.1 h
    simpa [hc] using h'
  have := this c (by simp)
  simp [hc] at this

/-- The operands of a line read back as they were written. -/
theorem readOperands_text (o : AsmOperand) (os : List AsmOperand) :
    readOperands (' ' :: operandsText (o :: os)) = some ((o :: os).map AsmOperand.raw) := by
  obtain ⟨c, cs, ht, hc⟩ := operandsText_ne_nil o os
  rw [readOperands, if_neg (ht ▸ trimSpaces_ne_nil hc), splitCommas_space (splitCommas_operandsText o os), ← List.map_cons
    (f := fun p : AsmOperand => ' ' :: p.text), List.mapM_map]
  refine mapM_some fun p _ => ?_
  simp only [Function.comp, trimSpaces_space p.text_plain.1, readOperand_text]

theorem operandsText_getLast (o : AsmOperand) (os : List AsmOperand) :
    ∃ t c, operandsText (o :: os) = t ++ [c] ∧ c ≠ ' ' := by
  induction os generalizing o with
  | nil =>
    obtain ⟨h, h0⟩ := o.text_plain
    exact ⟨_, _, (List.dropLast_append_getLast h0).symm, (h _ (List.getLast_mem h0)).2⟩
  | cons p os ih =>
    obtain ⟨t, c, ht, hc⟩ := ih p
    exact ⟨o.text ++ ',' :: ' ' :: t, c, by rw [operandsText, ht, List.append_assoc, List.cons_append, List.cons_append], hc⟩

theorem trimSpaces_ends {c d : Char} {t u : Text} (hc : c ≠ ' ') (hd : d ≠ ' ') (h : c :: t = u ++ [d]) :
    trimSpaces (c :: t) = c :: t := by
  rw [trimSpaces, List.dropWhile_cons, if_neg (by simpa using hc), h, List.reverse_append, List.reverse_singleton,
    List.singleton_append, List.dropWhile_cons, if_neg (by simpa using hd), List.reverse_cons, List.reverse_reverse]

/-- The mnemonics are read back, none is a beginning of a space, and each is followed by one. -/
theorem mnemonic_text (m : Mnemonic) : readMnemonic m.text = some m ∧ Plain m.text ∧ m.text ≠ [] := by
  cases m <;> exact ⟨by decide, by simp [Plain, Mnemonic.text], nofun⟩

/-- A line reads back as its mnemonic's instruction of its operands. -/
theorem readLine_text (l : AsmLine) : readLine l.text = l.mnemonic.raw? (l.operands.map AsmOperand.raw) := by
  obtain ⟨m, os⟩ := l
  obtain ⟨hm, hp, h0⟩ := mnemonic_text m
  obtain ⟨c, cs, hmc⟩ : ∃ c cs, m.text = c :: cs := List.exists_cons_of_ne_nil h0
  have hc : c ≠ ' ' := (hp c (hmc ▸ List.mem_cons_self)).2
  have htake : ∀ u : Text, (m.text ++ ' ' :: u).takeWhile (· != ' ') = m.text ∧
      (m.text ++ ' ' :: u).dropWhile (· != ' ') = ' ' :: u := by
    intro u
    have h : ∀ x ∈ m.text, (x != ' ') = true := fun x hx => by simpa using (hp x hx).2
    rw [List.takeWhile_append_of_pos h, List.dropWhile_append_of_pos h]
    simp
  cases os with
  | nil =>
    have h : ∀ x ∈ m.text, (x != ' ') = true := fun x hx => by simpa using (hp x hx).2
    have h1 : m.text.takeWhile (· != ' ') = m.text := by
      simpa using List.takeWhile_append_of_pos (l₂ := []) h
    have h2 : m.text.dropWhile (· != ' ') = [] := by simpa using List.dropWhile_append_of_pos (l₂ := []) h
    simp only [readLine, AsmLine.text, trimSpaces_plain hp, h1, h2, hm]
    rfl
  | cons o os =>
    obtain ⟨t, d, ht, hd⟩ := operandsText_getLast o os
    have hline : trimSpaces (m.text ++ ' ' :: operandsText (o :: os)) = m.text ++ ' ' :: operandsText (o :: os) := by
      rw [hmc, List.cons_append]
      exact trimSpaces_ends (u := c :: (cs ++ ' ' :: t)) hc hd (by rw [ht]; simp)
    simp only [readLine, AsmLine.text, hline, (htake _).1, (htake _).2, hm, readOperands_text]
    rfl

end Sys2Proof
end

