-- ==== Sys2Proof/Laws/State.lean ====
section
/-! SUPPORT. What each update of the state does to each field, by `rfl`, and to what the accessors read. -/

namespace Sys2Proof.Machine

/-! ### `setMem` -/

@[simp] theorem State.setMem_mem (s : State) (m : Memory) : (s.setMem m).mem = m := rfl
@[simp] theorem State.setMem_V (s : State) (m : Memory) : (s.setMem m).V = s.V := rfl
@[simp] theorem State.setMem_I (s : State) (m : Memory) : (s.setMem m).I = s.I := rfl
@[simp] theorem State.setMem_pc (s : State) (m : Memory) : (s.setMem m).pc = s.pc := rfl
@[simp] theorem State.setMem_stack (s : State) (m : Memory) : (s.setMem m).stack = s.stack := rfl
@[simp] theorem State.setMem_DT (s : State) (m : Memory) : (s.setMem m).DT = s.DT := rfl
@[simp] theorem State.setMem_ST (s : State) (m : Memory) : (s.setMem m).ST = s.ST := rfl
@[simp] theorem State.setMem_disp (s : State) (m : Memory) : (s.setMem m).disp = s.disp := rfl
@[simp] theorem State.setMem_key (s : State) (m : Memory) : (s.setMem m).key = s.key := rfl
@[simp] theorem State.setMem_kwait (s : State) (m : Memory) : (s.setMem m).kwait = s.kwait := rfl
@[simp] theorem State.setMem_klatch (s : State) (m : Memory) : (s.setMem m).klatch = s.klatch := rfl
@[simp] theorem State.setMem_cfg (s : State) (m : Memory) : (s.setMem m).cfg = s.cfg := rfl
@[simp] theorem State.setMem_draws (s : State) (m : Memory) : (s.setMem m).draws = s.draws := rfl

/-! ### `setReg` -/

@[simp] theorem State.setReg_mem (s : State) (x : Reg) (b : Byte) : (s.setReg x b).mem = s.mem := rfl
@[simp] theorem State.setReg_V (s : State) (x : Reg) (b : Byte) : (s.setReg x b).V = s.V.set x.val b x.isLt := rfl
@[simp] theorem State.setReg_I (s : State) (x : Reg) (b : Byte) : (s.setReg x b).I = s.I := rfl
@[simp] theorem State.setReg_pc (s : State) (x : Reg) (b : Byte) : (s.setReg x b).pc = s.pc := rfl
@[simp] theorem State.setReg_stack (s : State) (x : Reg) (b : Byte) : (s.setReg x b).stack = s.stack := rfl
@[simp] theorem State.setReg_DT (s : State) (x : Reg) (b : Byte) : (s.setReg x b).DT = s.DT := rfl
@[simp] theorem State.setReg_ST (s : State) (x : Reg) (b : Byte) : (s.setReg x b).ST = s.ST := rfl
@[simp] theorem State.setReg_disp (s : State) (x : Reg) (b : Byte) : (s.setReg x b).disp = s.disp := rfl
@[simp] theorem State.setReg_key (s : State) (x : Reg) (b : Byte) : (s.setReg x b).key = s.key := rfl
@[simp] theorem State.setReg_kwait (s : State) (x : Reg) (b : Byte) : (s.setReg x b).kwait = s.kwait := rfl
@[simp] theorem State.setReg_klatch (s : State) (x : Reg) (b : Byte) : (s.setReg x b).klatch = s.klatch := rfl
@[simp] theorem State.setReg_cfg (s : State) (x : Reg) (b : Byte) : (s.setReg x b).cfg = s.cfg := rfl
@[simp] theorem State.setReg_draws (s : State) (x : Reg) (b : Byte) : (s.setReg x b).draws = s.draws := rfl

/-! ### `setI` -/

@[simp] theorem State.setI_mem (s : State) (v : Word) : (s.setI v).mem = s.mem := rfl
@[simp] theorem State.setI_V (s : State) (v : Word) : (s.setI v).V = s.V := rfl
@[simp] theorem State.setI_I (s : State) (v : Word) : (s.setI v).I = v := rfl
@[simp] theorem State.setI_pc (s : State) (v : Word) : (s.setI v).pc = s.pc := rfl
@[simp] theorem State.setI_stack (s : State) (v : Word) : (s.setI v).stack = s.stack := rfl
@[simp] theorem State.setI_DT (s : State) (v : Word) : (s.setI v).DT = s.DT := rfl
@[simp] theorem State.setI_ST (s : State) (v : Word) : (s.setI v).ST = s.ST := rfl
@[simp] theorem State.setI_disp (s : State) (v : Word) : (s.setI v).disp = s.disp := rfl
@[simp] theorem State.setI_key (s : State) (v : Word) : (s.setI v).key = s.key := rfl
@[simp] theorem State.setI_kwait (s : State) (v : Word) : (s.setI v).kwait = s.kwait := rfl
@[simp] theorem State.setI_klatch (s : State) (v : Word) : (s.setI v).klatch = s.klatch := rfl
@[simp] theorem State.setI_cfg (s : State) (v : Word) : (s.setI v).cfg = s.cfg := rfl
@[simp] theorem State.setI_draws (s : State) (v : Word) : (s.setI v).draws = s.draws := rfl

/-! ### `setPc` -/

@[simp] theorem State.setPc_mem (s : State) (v : Word) : (s.setPc v).mem = s.mem := rfl
@[simp] theorem State.setPc_V (s : State) (v : Word) : (s.setPc v).V = s.V := rfl
@[simp] theorem State.setPc_I (s : State) (v : Word) : (s.setPc v).I = s.I := rfl
@[simp] theorem State.setPc_pc (s : State) (v : Word) : (s.setPc v).pc = v := rfl
@[simp] theorem State.setPc_stack (s : State) (v : Word) : (s.setPc v).stack = s.stack := rfl
@[simp] theorem State.setPc_DT (s : State) (v : Word) : (s.setPc v).DT = s.DT := rfl
@[simp] theorem State.setPc_ST (s : State) (v : Word) : (s.setPc v).ST = s.ST := rfl
@[simp] theorem State.setPc_disp (s : State) (v : Word) : (s.setPc v).disp = s.disp := rfl
@[simp] theorem State.setPc_key (s : State) (v : Word) : (s.setPc v).key = s.key := rfl
@[simp] theorem State.setPc_kwait (s : State) (v : Word) : (s.setPc v).kwait = s.kwait := rfl
@[simp] theorem State.setPc_klatch (s : State) (v : Word) : (s.setPc v).klatch = s.klatch := rfl
@[simp] theorem State.setPc_cfg (s : State) (v : Word) : (s.setPc v).cfg = s.cfg := rfl
@[simp] theorem State.setPc_draws (s : State) (v : Word) : (s.setPc v).draws = s.draws := rfl

/-! ### `setStack` -/

@[simp] theorem State.setStack_mem (s : State) (st : List Word) : (s.setStack st).mem = s.mem := rfl
@[simp] theorem State.setStack_V (s : State) (st : List Word) : (s.setStack st).V = s.V := rfl
@[simp] theorem State.setStack_I (s : State) (st : List Word) : (s.setStack st).I = s.I := rfl
@[simp] theorem State.setStack_pc (s : State) (st : List Word) : (s.setStack st).pc = s.pc := rfl
@[simp] theorem State.setStack_stack (s : State) (st : List Word) : (s.setStack st).stack = st := rfl
@[simp] theorem State.setStack_DT (s : State) (st : List Word) : (s.setStack st).DT = s.DT := rfl
@[simp] theorem State.setStack_ST (s : State) (st : List Word) : (s.setStack st).ST = s.ST := rfl
@[simp] theorem State.setStack_disp (s : State) (st : List Word) : (s.setStack st).disp = s.disp := rfl
@[simp] theorem State.setStack_key (s : State) (st : List Word) : (s.setStack st).key = s.key := rfl
@[simp] theorem State.setStack_kwait (s : State) (st : List Word) : (s.setStack st).kwait = s.kwait := rfl
@[simp] theorem State.setStack_klatch (s : State) (st : List Word) : (s.setStack st).klatch = s.klatch := rfl
@[simp] theorem State.setStack_cfg (s : State) (st : List Word) : (s.setStack st).cfg = s.cfg := rfl
@[simp] theorem State.setStack_draws (s : State) (st : List Word) : (s.setStack st).draws = s.draws := rfl

/-! ### `setDT` -/

@[simp] theorem State.setDT_mem (s : State) (b : Byte) : (s.setDT b).mem = s.mem := rfl
@[simp] theorem State.setDT_V (s : State) (b : Byte) : (s.setDT b).V = s.V := rfl
@[simp] theorem State.setDT_I (s : State) (b : Byte) : (s.setDT b).I = s.I := rfl
@[simp] theorem State.setDT_pc (s : State) (b : Byte) : (s.setDT b).pc = s.pc := rfl
@[simp] theorem State.setDT_stack (s : State) (b : Byte) : (s.setDT b).stack = s.stack := rfl
@[simp] theorem State.setDT_DT (s : State) (b : Byte) : (s.setDT b).DT = b := rfl
@[simp] theorem State.setDT_ST (s : State) (b : Byte) : (s.setDT b).ST = s.ST := rfl
@[simp] theorem State.setDT_disp (s : State) (b : Byte) : (s.setDT b).disp = s.disp := rfl
@[simp] theorem State.setDT_key (s : State) (b : Byte) : (s.setDT b).key = s.key := rfl
@[simp] theorem State.setDT_kwait (s : State) (b : Byte) : (s.setDT b).kwait = s.kwait := rfl
@[simp] theorem State.setDT_klatch (s : State) (b : Byte) : (s.setDT b).klatch = s.klatch := rfl
@[simp] theorem State.setDT_cfg (s : State) (b : Byte) : (s.setDT b).cfg = s.cfg := rfl
@[simp] theorem State.setDT_draws (s : State) (b : Byte) : (s.setDT b).draws = s.draws := rfl

/-! ### `setST` -/

@[simp] theorem State.setST_mem (s : State) (b : Byte) : (s.setST b).mem = s.mem := rfl
@[simp] theorem State.setST_V (s : State) (b : Byte) : (s.setST b).V = s.V := rfl
@[simp] theorem State.setST_I (s : State) (b : Byte) : (s.setST b).I = s.I := rfl
@[simp] theorem State.setST_pc (s : State) (b : Byte) : (s.setST b).pc = s.pc := rfl
@[simp] theorem State.setST_stack (s : State) (b : Byte) : (s.setST b).stack = s.stack := rfl
@[simp] theorem State.setST_DT (s : State) (b : Byte) : (s.setST b).DT = s.DT := rfl
@[simp] theorem State.setST_ST (s : State) (b : Byte) : (s.setST b).ST = b := rfl
@[simp] theorem State.setST_disp (s : State) (b : Byte) : (s.setST b).disp = s.disp := rfl
@[simp] theorem State.setST_key (s : State) (b : Byte) : (s.setST b).key = s.key := rfl
@[simp] theorem State.setST_kwait (s : State) (b : Byte) : (s.setST b).kwait = s.kwait := rfl
@[simp] theorem State.setST_klatch (s : State) (b : Byte) : (s.setST b).klatch = s.klatch := rfl
@[simp] theorem State.setST_cfg (s : State) (b : Byte) : (s.setST b).cfg = s.cfg := rfl
@[simp] theorem State.setST_draws (s : State) (b : Byte) : (s.setST b).draws = s.draws := rfl

/-! ### `setDisp` -/

@[simp] theorem State.setDisp_mem (s : State) (d : Display) : (s.setDisp d).mem = s.mem := rfl
@[simp] theorem State.setDisp_V (s : State) (d : Display) : (s.setDisp d).V = s.V := rfl
@[simp] theorem State.setDisp_I (s : State) (d : Display) : (s.setDisp d).I = s.I := rfl
@[simp] theorem State.setDisp_pc (s : State) (d : Display) : (s.setDisp d).pc = s.pc := rfl
@[simp] theorem State.setDisp_stack (s : State) (d : Display) : (s.setDisp d).stack = s.stack := rfl
@[simp] theorem State.setDisp_DT (s : State) (d : Display) : (s.setDisp d).DT = s.DT := rfl
@[simp] theorem State.setDisp_ST (s : State) (d : Display) : (s.setDisp d).ST = s.ST := rfl
@[simp] theorem State.setDisp_disp (s : State) (d : Display) : (s.setDisp d).disp = d := rfl
@[simp] theorem State.setDisp_key (s : State) (d : Display) : (s.setDisp d).key = s.key := rfl
@[simp] theorem State.setDisp_kwait (s : State) (d : Display) : (s.setDisp d).kwait = s.kwait := rfl
@[simp] theorem State.setDisp_klatch (s : State) (d : Display) : (s.setDisp d).klatch = s.klatch := rfl
@[simp] theorem State.setDisp_cfg (s : State) (d : Display) : (s.setDisp d).cfg = s.cfg := rfl
@[simp] theorem State.setDisp_draws (s : State) (d : Display) : (s.setDisp d).draws = s.draws := rfl

/-! ### `setKey` -/

@[simp] theorem State.setKey_mem (s : State) (k : Key) (p : Bool) : (s.setKey k p).mem = s.mem := rfl
@[simp] theorem State.setKey_V (s : State) (k : Key) (p : Bool) : (s.setKey k p).V = s.V := rfl
@[simp] theorem State.setKey_I (s : State) (k : Key) (p : Bool) : (s.setKey k p).I = s.I := rfl
@[simp] theorem State.setKey_pc (s : State) (k : Key) (p : Bool) : (s.setKey k p).pc = s.pc := rfl
@[simp] theorem State.setKey_stack (s : State) (k : Key) (p : Bool) : (s.setKey k p).stack = s.stack := rfl
@[simp] theorem State.setKey_DT (s : State) (k : Key) (p : Bool) : (s.setKey k p).DT = s.DT := rfl
@[simp] theorem State.setKey_ST (s : State) (k : Key) (p : Bool) : (s.setKey k p).ST = s.ST := rfl
@[simp] theorem State.setKey_disp (s : State) (k : Key) (p : Bool) : (s.setKey k p).disp = s.disp := rfl
@[simp] theorem State.setKey_key (s : State) (k : Key) (p : Bool) : (s.setKey k p).key = s.key.set k.val p k.isLt := rfl
@[simp] theorem State.setKey_kwait (s : State) (k : Key) (p : Bool) : (s.setKey k p).kwait = s.kwait := rfl
@[simp] theorem State.setKey_klatch (s : State) (k : Key) (p : Bool) : (s.setKey k p).klatch = s.klatch := rfl
@[simp] theorem State.setKey_cfg (s : State) (k : Key) (p : Bool) : (s.setKey k p).cfg = s.cfg := rfl
@[simp] theorem State.setKey_draws (s : State) (k : Key) (p : Bool) : (s.setKey k p).draws = s.draws := rfl

/-! ### `setWait` -/

@[simp] theorem State.setWait_mem (s : State) (w : Bool) (l : Option Key) : (s.setWait w l).mem = s.mem := rfl
@[simp] theorem State.setWait_V (s : State) (w : Bool) (l : Option Key) : (s.setWait w l).V = s.V := rfl
@[simp] theorem State.setWait_I (s : State) (w : Bool) (l : Option Key) : (s.setWait w l).I = s.I := rfl
@[simp] theorem State.setWait_pc (s : State) (w : Bool) (l : Option Key) : (s.setWait w l).pc = s.pc := rfl
@[simp] theorem State.setWait_stack (s : State) (w : Bool) (l : Option Key) : (s.setWait w l).stack = s.stack := rfl
@[simp] theorem State.setWait_DT (s : State) (w : Bool) (l : Option Key) : (s.setWait w l).DT = s.DT := rfl
@[simp] theorem State.setWait_ST (s : State) (w : Bool) (l : Option Key) : (s.setWait w l).ST = s.ST := rfl
@[simp] theorem State.setWait_disp (s : State) (w : Bool) (l : Option Key) : (s.setWait w l).disp = s.disp := rfl
@[simp] theorem State.setWait_key (s : State) (w : Bool) (l : Option Key) : (s.setWait w l).key = s.key := rfl
@[simp] theorem State.setWait_kwait (s : State) (w : Bool) (l : Option Key) : (s.setWait w l).kwait = w := rfl
@[simp] theorem State.setWait_klatch (s : State) (w : Bool) (l : Option Key) : (s.setWait w l).klatch = l := rfl
@[simp] theorem State.setWait_cfg (s : State) (w : Bool) (l : Option Key) : (s.setWait w l).cfg = s.cfg := rfl
@[simp] theorem State.setWait_draws (s : State) (w : Bool) (l : Option Key) : (s.setWait w l).draws = s.draws := rfl

/-! ### `countDraw` -/

@[simp] theorem State.countDraw_mem (s : State) : (s.countDraw).mem = s.mem := rfl
@[simp] theorem State.countDraw_V (s : State) : (s.countDraw).V = s.V := rfl
@[simp] theorem State.countDraw_I (s : State) : (s.countDraw).I = s.I := rfl
@[simp] theorem State.countDraw_pc (s : State) : (s.countDraw).pc = s.pc := rfl
@[simp] theorem State.countDraw_stack (s : State) : (s.countDraw).stack = s.stack := rfl
@[simp] theorem State.countDraw_DT (s : State) : (s.countDraw).DT = s.DT := rfl
@[simp] theorem State.countDraw_ST (s : State) : (s.countDraw).ST = s.ST := rfl
@[simp] theorem State.countDraw_disp (s : State) : (s.countDraw).disp = s.disp := rfl
@[simp] theorem State.countDraw_key (s : State) : (s.countDraw).key = s.key := rfl
@[simp] theorem State.countDraw_kwait (s : State) : (s.countDraw).kwait = s.kwait := rfl
@[simp] theorem State.countDraw_klatch (s : State) : (s.countDraw).klatch = s.klatch := rfl
@[simp] theorem State.countDraw_cfg (s : State) : (s.countDraw).cfg = s.cfg := rfl
@[simp] theorem State.countDraw_draws (s : State) : (s.countDraw).draws = s.draws + 1 := rfl

/-! ### `setVF` -/

@[simp] theorem State.setVF_mem (s : State) (c : Bool) : (s.setVF c).mem = s.mem := rfl
@[simp] theorem State.setVF_I (s : State) (c : Bool) : (s.setVF c).I = s.I := rfl
@[simp] theorem State.setVF_pc (s : State) (c : Bool) : (s.setVF c).pc = s.pc := rfl
@[simp] theorem State.setVF_stack (s : State) (c : Bool) : (s.setVF c).stack = s.stack := rfl
@[simp] theorem State.setVF_DT (s : State) (c : Bool) : (s.setVF c).DT = s.DT := rfl
@[simp] theorem State.setVF_ST (s : State) (c : Bool) : (s.setVF c).ST = s.ST := rfl
@[simp] theorem State.setVF_disp (s : State) (c : Bool) : (s.setVF c).disp = s.disp := rfl
@[simp] theorem State.setVF_key (s : State) (c : Bool) : (s.setVF c).key = s.key := rfl
@[simp] theorem State.setVF_kwait (s : State) (c : Bool) : (s.setVF c).kwait = s.kwait := rfl
@[simp] theorem State.setVF_klatch (s : State) (c : Bool) : (s.setVF c).klatch = s.klatch := rfl
@[simp] theorem State.setVF_cfg (s : State) (c : Bool) : (s.setVF c).cfg = s.cfg := rfl
@[simp] theorem State.setVF_draws (s : State) (c : Bool) : (s.setVF c).draws = s.draws := rfl

/-! ### The accessors `reg`, `keyDown`, `byteAt` -/

@[simp] theorem State.reg_setMem (s : State) (m : Memory) (r : Reg) : (s.setMem m).reg r = s.reg r := rfl
@[simp] theorem State.reg_setI (s : State) (v : Word) (r : Reg) : (s.setI v).reg r = s.reg r := rfl
@[simp] theorem State.reg_setPc (s : State) (v : Word) (r : Reg) : (s.setPc v).reg r = s.reg r := rfl
@[simp] theorem State.reg_setStack (s : State) (st : List Word) (r : Reg) : (s.setStack st).reg r = s.reg r := rfl
@[simp] theorem State.reg_setDT (s : State) (b : Byte) (r : Reg) : (s.setDT b).reg r = s.reg r := rfl
@[simp] theorem State.reg_setST (s : State) (b : Byte) (r : Reg) : (s.setST b).reg r = s.reg r := rfl
@[simp] theorem State.reg_setDisp (s : State) (d : Display) (r : Reg) : (s.setDisp d).reg r = s.reg r := rfl
@[simp] theorem State.reg_setKey (s : State) (k : Key) (p : Bool) (r : Reg) : (s.setKey k p).reg r = s.reg r := rfl
@[simp] theorem State.reg_setWait (s : State) (w : Bool) (l : Option Key) (r : Reg) : (s.setWait w l).reg r = s.reg r := rfl
@[simp] theorem State.reg_countDraw (s : State) (r : Reg) : (s.countDraw).reg r = s.reg r := rfl
@[simp] theorem State.keyDown_setMem (s : State) (m : Memory) (j : Key) : (s.setMem m).keyDown j = s.keyDown j := rfl
@[simp] theorem State.keyDown_setReg (s : State) (x : Reg) (b : Byte) (j : Key) : (s.setReg x b).keyDown j = s.keyDown j := rfl
@[simp] theorem State.keyDown_setI (s : State) (v : Word) (j : Key) : (s.setI v).keyDown j = s.keyDown j := rfl
@[simp] theorem State.keyDown_setPc (s : State) (v : Word) (j : Key) : (s.setPc v).keyDown j = s.keyDown j := rfl
@[simp] theorem State.keyDown_setStack (s : State) (st : List Word) (j : Key) : (s.setStack st).keyDown j = s.keyDown j := rfl
@[simp] theorem State.keyDown_setDT (s : State) (b : Byte) (j : Key) : (s.setDT b).keyDown j = s.keyDown j := rfl
@[simp] theorem State.keyDown_setST (s : State) (b : Byte) (j : Key) : (s.setST b).keyDown j = s.keyDown j := rfl
@[simp] theorem State.keyDown_setDisp (s : State) (d : Display) (j : Key) : (s.setDisp d).keyDown j = s.keyDown j := rfl
@[simp] theorem State.keyDown_setWait (s : State) (w : Bool) (l : Option Key) (j : Key) : (s.setWait w l).keyDown j = s.keyDown j := rfl
@[simp] theorem State.keyDown_countDraw (s : State) (j : Key) : (s.countDraw).keyDown j = s.keyDown j := rfl
@[simp] theorem State.keyDown_setVF (s : State) (c : Bool) (j : Key) : (s.setVF c).keyDown j = s.keyDown j := rfl
@[simp] theorem State.byteAt_setReg (s : State) (x : Reg) (b : Byte) (a : Nat) : (s.setReg x b).byteAt a = s.byteAt a := rfl
@[simp] theorem State.byteAt_setI (s : State) (v : Word) (a : Nat) : (s.setI v).byteAt a = s.byteAt a := rfl
@[simp] theorem State.byteAt_setPc (s : State) (v : Word) (a : Nat) : (s.setPc v).byteAt a = s.byteAt a := rfl
@[simp] theorem State.byteAt_setStack (s : State) (st : List Word) (a : Nat) : (s.setStack st).byteAt a = s.byteAt a := rfl
@[simp] theorem State.byteAt_setDT (s : State) (b : Byte) (a : Nat) : (s.setDT b).byteAt a = s.byteAt a := rfl
@[simp] theorem State.byteAt_setST (s : State) (b : Byte) (a : Nat) : (s.setST b).byteAt a = s.byteAt a := rfl
@[simp] theorem State.byteAt_setDisp (s : State) (d : Display) (a : Nat) : (s.setDisp d).byteAt a = s.byteAt a := rfl
@[simp] theorem State.byteAt_setKey (s : State) (k : Key) (p : Bool) (a : Nat) : (s.setKey k p).byteAt a = s.byteAt a := rfl
@[simp] theorem State.byteAt_setWait (s : State) (w : Bool) (l : Option Key) (a : Nat) : (s.setWait w l).byteAt a = s.byteAt a := rfl
@[simp] theorem State.byteAt_countDraw (s : State) (a : Nat) : (s.countDraw).byteAt a = s.byteAt a := rfl
@[simp] theorem State.byteAt_setVF (s : State) (c : Bool) (a : Nat) : (s.setVF c).byteAt a = s.byteAt a := rfl

theorem State.reg_setReg (s : State) (x : Reg) (b : Byte) (r : Reg) :
    (s.setReg x b).reg r = if r = x then b else s.reg r := by
  simp only [State.reg, State.setReg_V, Vector.get_eq_getElem, Vector.getElem_set, Fin.ext_iff, eq_comm]

@[simp] theorem State.reg_setReg_same (s : State) (x : Reg) (b : Byte) : (s.setReg x b).reg x = b := by
  simp [State.reg_setReg]

theorem State.reg_setReg_other (s : State) (x : Reg) (b : Byte) (r : Reg) (h : r ≠ x) :
    (s.setReg x b).reg r = s.reg r := by
  simp [State.reg_setReg, h]

@[simp] theorem State.reg_setVF_same (s : State) (c : Bool) : (s.setVF c).reg Reg.vf = flagByte c := by
  simp [State.setVF]

theorem State.reg_setVF_other (s : State) (c : Bool) (r : Reg) (h : r ≠ Reg.vf) : (s.setVF c).reg r = s.reg r := by
  simp [State.setVF, State.reg_setReg, h]

theorem State.keyDown_setKey (s : State) (k : Key) (p : Bool) (j : Key) :
    (s.setKey k p).keyDown j = if j = k then p else s.keyDown j := by
  simp only [State.keyDown, State.setKey_key, Vector.get_eq_getElem, Vector.getElem_set, Fin.ext_iff, eq_comm]

@[simp] theorem State.byteAt_setMem (s : State) (m : Memory) (a : Nat) : (s.setMem m).byteAt a = m.read a := rfl

/-- Of two writes to one register the last wins (R66). -/
@[simp] theorem State.setReg_setReg_same (s : State) (x : Reg) (b c : Byte) :
    (s.setReg x b).setReg x c = s.setReg x c := by
  simp only [State.setReg, Vector.set_set]

/-- Writing a register's own value changes nothing. -/
@[simp] theorem State.setReg_reg (s : State) (x : Reg) : s.setReg x (s.reg x) = s := by
  simp only [State.setReg, State.reg, Vector.get_eq_getElem, Vector.set_getElem_self]

/-- Two register files that agree at every register are equal. -/
theorem RegFile.ext_get {v w : RegFile} (h : ∀ r : Reg, v.get r = w.get r) : v = w := by
  apply Vector.ext
  intro i hi
  exact h ⟨i, hi⟩

end Sys2Proof.Machine
end

