-- ==== Sys2Proof/Laws/Display.lean ====
section
/-! SUPPORT. What drawing does to each pixel (R74): no pixel is touched twice in one draw, so a pixel ends as its old
value XOR the sprite bit over it, and `hit` is set exactly when a sprite bit met a pixel that was on. -/

namespace Sys2Proof.Machine

theorem Display.pixel_setPixel (d : Display) (py py' : Fin dispH) (px px' : Fin dispW) (p : Bool) :
    Display.pixel (Display.setPixel d py px p) py' px' =
      if py' = py ∧ px' = px then p else Display.pixel d py' px' := by
  simp only [Display.pixel, Display.setPixel, Vector.get_eq_getElem, Vector.getElem_set, Fin.ext_iff]
  by_cases h : py.val = py'.val
  · by_cases h' : px.val = px'.val
    · simp [h, h']
    · simp [h, h', eq_comm]
  · simp [h, eq_comm]

/-- Two displays that agree at every pixel are equal. -/
theorem Display.ext_pixel {d e : Display} (h : ∀ py px, Display.pixel d py px = Display.pixel e py px) : d = e := by
  apply Vector.ext
  intro i hi
  apply Vector.ext
  intro j hj
  exact h ⟨i, hi⟩ ⟨j, hj⟩

@[simp] theorem Display.pixel_clear (py : Fin dispH) (px : Fin dispW) : Display.pixel Display.clear py px = false := by
  simp [Display.pixel, Display.clear, Vector.get_eq_getElem]

/-- A pixel is where column `c` and row `r` of a sprite that starts at `x0`, `y0` fall. -/
def Touches (x0 y0 r c : Nat) (py : Fin dispH) (px : Fin dispW) : Prop :=
  py = Fin.ofNat dispH (y0 + r) ∧ px = Fin.ofNat dispW (x0 + c)

theorem drawBit_pixel (old : Display) (x0 y0 r : Nat) (row : Byte) (cv : Canvas) (c : Nat) (py : Fin dispH)
    (px : Fin dispW) :
    Display.pixel (drawBit old x0 y0 r row cv c).disp py px = (Display.pixel old py px ^^ true) ∧
        Touches x0 y0 r c py px ∧ row.getLsbD (7 - c) = true ∨
      Display.pixel (drawBit old x0 y0 r row cv c).disp py px = Display.pixel cv.disp py px ∧
        ¬ (Touches x0 y0 r c py px ∧ row.getLsbD (7 - c) = true) := by
  unfold drawBit
  by_cases hb : row.getLsbD (7 - c) = true
  · simp only [hb, if_true, Display.pixel_setPixel, Touches]
    by_cases ht : py = Fin.ofNat dispH (y0 + r) ∧ px = Fin.ofNat dispW (x0 + c)
    · left
      obtain ⟨rfl, rfl⟩ := ht
      simp
    · exact .inr ⟨if_neg ht, fun h => ht h.1⟩
  · right
    simp [hb]

theorem drawBit_hit (old : Display) (x0 y0 r : Nat) (row : Byte) (cv : Canvas) (c : Nat) :
    (drawBit old x0 y0 r row cv c).hit = true ↔ cv.hit = true ∨
      ∃ py px, Touches x0 y0 r c py px ∧ row.getLsbD (7 - c) = true ∧ Display.pixel old py px = true := by
  unfold drawBit
  by_cases hb : row.getLsbD (7 - c) = true
  · simp only [hb, if_true, Bool.or_eq_true, true_and, Touches]
    constructor
    · rintro (h | h)
      · exact .inl h
      · exact .inr ⟨_, _, ⟨rfl, rfl⟩, h⟩
    · rintro (h | ⟨_, _, ⟨rfl, rfl⟩, h⟩)
      · exact .inl h
      · exact .inr h
  · simp [hb]

/-- What a list of sprite cells does to a canvas whose pixels are the old ones or the old ones inverted. -/
theorem foldl_drawBit (old : Display) (x0 y0 r : Nat) (row : Byte) (cs : List Nat) (cv : Canvas) (py : Fin dispH)
    (px : Fin dispW) :
    Display.pixel (cs.foldl (drawBit old x0 y0 r row) cv).disp py px = (Display.pixel old py px ^^ true) ∧
        (∃ c ∈ cs, Touches x0 y0 r c py px ∧ row.getLsbD (7 - c) = true) ∨
      Display.pixel (cs.foldl (drawBit old x0 y0 r row) cv).disp py px = Display.pixel cv.disp py px ∧
        ¬ ∃ c ∈ cs, Touches x0 y0 r c py px ∧ row.getLsbD (7 - c) = true := by
  induction cs generalizing cv with
  | nil => right; simp
  | cons c cs ih =>
    rw [List.foldl_cons]
    rcases ih (drawBit old x0 y0 r row cv c) with ⟨h, c', hc', ht⟩ | ⟨h, hn⟩
    · exact .inl ⟨h, c', List.mem_cons_of_mem _ hc', ht⟩
    · rcases drawBit_pixel old x0 y0 r row cv c py px with ⟨h', ht⟩ | ⟨h', ht⟩
      · exact .inl ⟨h.trans h', c, List.mem_cons_self, ht⟩
      · refine .inr ⟨h.trans h', ?_⟩
        rintro ⟨c', hc', ht'⟩
        rcases List.mem_cons.1 hc' with rfl | hc'
        · exact ht ht'
        · exact hn ⟨c', hc', ht'⟩

theorem foldl_drawBit_hit (old : Display) (x0 y0 r : Nat) (row : Byte) (cs : List Nat) (cv : Canvas) :
    (cs.foldl (drawBit old x0 y0 r row) cv).hit = true ↔ cv.hit = true ∨
      ∃ c ∈ cs, ∃ py px, Touches x0 y0 r c py px ∧ row.getLsbD (7 - c) = true ∧ Display.pixel old py px = true := by
  induction cs generalizing cv with
  | nil => simp
  | cons c cs ih =>
    rw [List.foldl_cons, ih, drawBit_hit]
    simp only [List.mem_cons, exists_eq_or_imp, or_assoc]

/-- Some sprite cell of the rows `r`, `r + 1`, … with its bit set falls on the pixel. -/
def Covers (x0 y0 r : Nat) (rows : List Byte) (py : Fin dispH) (px : Fin dispW) : Prop :=
  ∃ k c, ∃ h : k < rows.length, c < 8 ∧ Touches x0 y0 (r + k) c py px ∧ rows[k].getLsbD (7 - c) = true

theorem Covers_cons {x0 y0 r : Nat} {row : Byte} {rows : List Byte} {py : Fin dispH} {px : Fin dispW} :
    Covers x0 y0 r (row :: rows) py px ↔
      (∃ c ∈ List.range 8, Touches x0 y0 r c py px ∧ row.getLsbD (7 - c) = true) ∨
        Covers x0 y0 (r + 1) rows py px := by
  constructor
  · rintro ⟨k, c, hk, hc, ht, hb⟩
    cases k with
    | zero => exact .inl ⟨c, List.mem_range.2 hc, ht, hb⟩
    | succ k =>
      refine .inr ⟨k, c, by simpa using hk, hc, ?_, hb⟩
      rwa [show r + 1 + k = r + (k + 1) by omega]
  · rintro (⟨c, hc, ht, hb⟩ | ⟨k, c, hk, hc, ht, hb⟩)
    · exact ⟨0, c, by simp, List.mem_range.1 hc, ht, hb⟩
    · refine ⟨k + 1, c, by simpa using hk, hc, ?_, hb⟩
      rwa [show r + (k + 1) = r + 1 + k by omega]

theorem drawRows_pixel (old : Display) (x0 y0 r : Nat) (rows : List Byte) (cv : Canvas) (py : Fin dispH)
    (px : Fin dispW) :
    Display.pixel (drawRows old x0 y0 r rows cv).disp py px = (Display.pixel old py px ^^ true) ∧
        Covers x0 y0 r rows py px ∨
      Display.pixel (drawRows old x0 y0 r rows cv).disp py px = Display.pixel cv.disp py px ∧
        ¬ Covers x0 y0 r rows py px := by
  induction rows generalizing r cv with
  | nil => exact .inr ⟨rfl, by rintro ⟨k, c, hk, -⟩; simp at hk⟩
  | cons row rows ih =>
    rw [drawRows, Covers_cons]
    rcases ih (r + 1) (drawRow old x0 y0 r row cv) with ⟨h, hc⟩ | ⟨h, hn⟩
    · exact .inl ⟨h, .inr hc⟩
    · rcases foldl_drawBit old x0 y0 r row (List.range 8) cv py px with ⟨h', hc⟩ | ⟨h', hn'⟩
      · exact .inl ⟨h.trans h', .inl hc⟩
      · exact .inr ⟨h.trans h', by rintro (hc | hc); exacts [hn' hc, hn hc]⟩

theorem drawRows_hit (old : Display) (x0 y0 r : Nat) (rows : List Byte) (cv : Canvas) :
    (drawRows old x0 y0 r rows cv).hit = true ↔ cv.hit = true ∨
      ∃ py px, Covers x0 y0 r rows py px ∧ Display.pixel old py px = true := by
  induction rows generalizing r cv with
  | nil =>
    simp only [drawRows, iff_self_or]
    rintro ⟨py, px, ⟨k, c, hk, -⟩, -⟩
    simp at hk
  | cons row rows ih =>
    rw [drawRows, ih, drawRow, foldl_drawBit_hit, or_assoc]
    refine or_congr_right ?_
    constructor
    · rintro (⟨c, hc, py, px, ht, hb, ho⟩ | ⟨py, px, hc, ho⟩)
      · exact ⟨py, px, Covers_cons.2 (.inl ⟨c, hc, ht, hb⟩), ho⟩
      · exact ⟨py, px, Covers_cons.2 (.inr hc), ho⟩
    · rintro ⟨py, px, hc, ho⟩
      rcases Covers_cons.1 hc with ⟨c, hc, ht, hb⟩ | hc
      · exact .inl ⟨c, hc, py, px, ht, hb, ho⟩
      · exact .inr ⟨py, px, hc, ho⟩

/-- A pixel after a draw: inverted where a set sprite bit falls on it, as it was elsewhere. -/
theorem drawSprite_pixel (rows : List Byte) (x0 y0 : Nat) (old : Display) (py : Fin dispH) (px : Fin dispW) :
    Display.pixel (drawSprite rows x0 y0 old).disp py px = (Display.pixel old py px ^^ true) ∧
        Covers x0 y0 0 rows py px ∨
      Display.pixel (drawSprite rows x0 y0 old).disp py px = Display.pixel old py px ∧
        ¬ Covers x0 y0 0 rows py px :=
  drawRows_pixel old x0 y0 0 rows _ py px

/-- `hit` after a draw: some set sprite bit met a pixel that was on. -/
theorem drawSprite_hit (rows : List Byte) (x0 y0 : Nat) (old : Display) :
    (drawSprite rows x0 y0 old).hit = true ↔
      ∃ py px, Covers x0 y0 0 rows py px ∧ Display.pixel old py px = true := by
  simp [drawSprite, drawRows_hit]

/-- The sprite cell that falls on a pixel is the pixel's distance from the start, counted with wraparound. -/
theorem Touches_iff {x0 y0 r c : Nat} {py : Fin dispH} {px : Fin dispW} (hx : x0 < dispW) (hy : y0 < dispH)
    (hr : r < dispH) (hc : c < dispW) :
    Touches x0 y0 r c py px ↔ r = (py.val + dispH - y0) % dispH ∧ c = (px.val + dispW - x0) % dispW := by
  have h1 := py.isLt
  have h2 := px.isLt
  simp only [Touches, Fin.ext_iff, Fin.val_ofNat, dispH, dispW] at *
  omega

end Sys2Proof.Machine
end

