-- ==== Sys2Proof/Laws/Memory.lean ====
section
/-! SUPPORT. Memory: read after write, the canonical form is kept, and what the checked accesses of R35 can do. -/

namespace Sys2Proof.Machine

/-! ### The canonical form -/

theorem Memory.wfFrom_cons {lo : Nat} {c : Host.Cell} {m : Memory} :
    Memory.wfFrom lo (c :: m) = true ↔
      lo ≤ c.1 ∧ c.1 ≤ addrMax ∧ c.2 ≠ Memory.initial c.1 ∧ Memory.wfFrom (c.1 + 1) m = true := by
  simp [Memory.wfFrom, and_assoc]

theorem Memory.wfFrom_mono {lo lo' : Nat} {m : Memory} (h : lo' ≤ lo) (hm : Memory.wfFrom lo m = true) :
    Memory.wfFrom lo' m = true := by
  cases m with
  | nil => rfl
  | cons c m =>
    rw [Memory.wfFrom_cons] at hm ⊢
    exact ⟨by omega, hm.2⟩

theorem Memory.wfFrom_consCell {lo a : Nat} {b : Byte} {m : Memory} (ha : a ≤ addrMax) (hlo : lo ≤ a)
    (hm : Memory.wfFrom (a + 1) m = true) : Memory.wfFrom lo (Memory.consCell a b m) = true := by
  unfold Memory.consCell
  split
  · exact Memory.wfFrom_mono (by omega) hm
  · next hb => exact Memory.wfFrom_cons.2 ⟨hlo, ha, hb, hm⟩

theorem Memory.wfFrom_write {lo a : Nat} {b : Byte} {m : Memory} (ha : a ≤ addrMax) (hlo : lo ≤ a)
    (hm : Memory.wfFrom lo m = true) : Memory.wfFrom lo (m.write a b) = true := by
  induction m generalizing lo with
  | nil => exact Memory.wfFrom_consCell ha hlo rfl
  | cons c m ih =>
    obtain ⟨h1, h2, h3, h4⟩ := Memory.wfFrom_cons.1 hm
    simp only [Memory.write]
    split
    · next hlt => exact Memory.wfFrom_consCell ha hlo (Memory.wfFrom_cons.2 ⟨by omega, h2, h3, h4⟩)
    · split
      · next heq => exact Memory.wfFrom_consCell ha hlo (heq ▸ h4)
      · next hnlt hne => exact Memory.wfFrom_cons.2 ⟨h1, h2, h3, ih (by omega) h4⟩

/-- A write of an address in range keeps the canonical form. -/
theorem Memory.wf_write {a : Nat} {b : Byte} {m : Memory} (ha : a ≤ addrMax) (hm : m.wf = true) :
    (m.write a b).wf = true :=
  Memory.wfFrom_write ha (Nat.zero_le a) hm

theorem Memory.wf_writeList {a : Nat} {bs : List Byte} {m : Memory} (ha : a + bs.length ≤ addrMax + 1)
    (hm : m.wf = true) : (m.writeList a bs).wf = true := by
  induction bs generalizing a m with
  | nil => exact hm
  | cons b bs ih =>
    simp only [List.length_cons] at ha
    exact ih (by omega) (Memory.wf_write (by omega) hm)

/-! ### Read after write -/

theorem Memory.read_cons {c : Host.Cell} {m : Memory} {a : Nat} :
    Memory.read (c :: m) a = if a = c.1 then c.2 else Memory.read m a := rfl

theorem Memory.read_below {lo a : Nat} {m : Memory} (hm : Memory.wfFrom lo m = true) (ha : a < lo) :
    m.read a = Memory.initial a := by
  induction m generalizing lo with
  | nil => rfl
  | cons c m ih =>
    obtain ⟨h1, -, -, h4⟩ := Memory.wfFrom_cons.1 hm
    rw [Memory.read_cons, if_neg (by omega)]
    exact ih h4 (by omega)

theorem Memory.read_consCell_other {a a' : Nat} {b : Byte} {m : Memory} (h : a' ≠ a) :
    (Memory.consCell a b m).read a' = m.read a' := by
  unfold Memory.consCell
  split
  · rfl
  · rw [Memory.read_cons, if_neg h]

theorem Memory.read_consCell_same {a : Nat} {b : Byte} {m : Memory} (hm : Memory.wfFrom (a + 1) m = true) :
    (Memory.consCell a b m).read a = b := by
  unfold Memory.consCell
  split
  · next hb => rw [Memory.read_below hm (Nat.lt_succ_self a), hb]
  · rw [Memory.read_cons, if_pos rfl]

/-- A write leaves every other address alone, in any memory. -/
theorem Memory.read_write_other {a a' : Nat} {b : Byte} {m : Memory} (h : a' ≠ a) :
    (m.write a b).read a' = m.read a' := by
  induction m with
  | nil => exact Memory.read_consCell_other h
  | cons c m ih =>
    simp only [Memory.write]
    split
    · exact Memory.read_consCell_other h
    · split
      · next heq => rw [Memory.read_consCell_other h, Memory.read_cons, if_neg (by omega)]
      · rw [Memory.read_cons, Memory.read_cons, ih]

theorem Memory.read_write_sameFrom {lo a : Nat} {b : Byte} {m : Memory} (hm : Memory.wfFrom lo m = true) :
    (m.write a b).read a = b := by
  induction m generalizing lo with
  | nil => exact Memory.read_consCell_same rfl
  | cons c m ih =>
    obtain ⟨h1, h2, h3, h4⟩ := Memory.wfFrom_cons.1 hm
    simp only [Memory.write]
    split
    · next hlt => exact Memory.read_consCell_same (Memory.wfFrom_cons.2 ⟨by omega, h2, h3, h4⟩)
    · split
      · next heq => exact Memory.read_consCell_same (heq ▸ h4)
      · next hne => rw [Memory.read_cons, if_neg hne]; exact ih h4

/-- A read of the address written gives the value written. -/
theorem Memory.read_write_same {a : Nat} {b : Byte} {m : Memory} (hm : m.wf = true) : (m.write a b).read a = b :=
  Memory.read_write_sameFrom hm

/-- Writing a list leaves every address outside it alone. -/
theorem Memory.read_writeList_outside {a a' : Nat} {bs : List Byte} {m : Memory} (h : a' < a ∨ a + bs.length ≤ a') :
    (m.writeList a bs).read a' = m.read a' := by
  induction bs generalizing a m with
  | nil => rfl
  | cons b bs ih =>
    simp only [List.length_cons] at h
    rw [Memory.writeList, ih (by omega), Memory.read_write_other (by omega)]

/-- Writing a list puts its `i`-th byte `i` bytes on. -/
theorem Memory.read_writeList_inside {a i : Nat} {bs : List Byte} {m : Memory} (hm : m.wf = true)
    (ha : a + bs.length ≤ addrMax + 1) (hi : i < bs.length) : (m.writeList a bs).read (a + i) = bs[i] := by
  induction bs generalizing a i m with
  | nil => simp at hi
  | cons b bs ih =>
    simp only [List.length_cons] at ha hi
    rw [Memory.writeList]
    cases i with
    | zero =>
      rw [Memory.read_writeList_outside (by omega)]
      exact Memory.read_write_same hm
    | succ i =>
      have := ih (a := a + 1) (i := i) (Memory.wf_write (a := a) (b := b) (by omega) hm) (by omega) (by omega)
      rw [show a + (i + 1) = a + 1 + i by omega, this, List.getElem_cons_succ]

/-! ### Checked accesses -/

theorem memRead_ok {a : Nat} {s : State} (h : a ≤ addrMax) : memRead a s = .ok (s.byteAt a) := by
  rw [memRead, if_neg (by omega)]

theorem memRead_error {a : Nat} {s : State} (h : addrMax < a) : memRead a s = .error .invalidOperand := by
  rw [memRead, if_pos h]

theorem memWrite_ok {a : Nat} {v : Byte} {s : State} (h : a ≤ addrMax) :
    memWrite a v s = .ok (s.setMem (s.mem.write a v)) := by
  rw [memWrite, if_neg (by omega)]

theorem memWrite_error {a : Nat} {v : Byte} {s : State} (h : addrMax < a) :
    memWrite a v s = .error .invalidOperand := by
  rw [memWrite, if_pos h]

/-- Reading `n` bytes in range gives them in order. -/
theorem memReadList_ok {a n : Nat} {s : State} (h : n = 0 ∨ a + n ≤ addrMax + 1) :
    memReadList a n s = .ok ((List.range n).map fun k => s.byteAt (a + k)) := by
  induction n generalizing a with
  | zero => rfl
  | succ n ih =>
    rw [memReadList, memRead_ok (by omega), ih (by omega), List.range_succ_eq_map]
    simp only [List.map_cons, List.map_map, Nat.add_zero, Except.ok.injEq, List.cons.injEq, true_and]
    apply List.map_congr_left
    intro k _
    simp only [Function.comp, Nat.succ_eq_add_one]
    rw [show a + 1 + k = a + (k + 1) by omega]

/-- Reading `n > 0` bytes that run past `0xFFF` raises `InvalidOperand`. -/
theorem memReadList_error {a n : Nat} {s : State} (h0 : 0 < n) (h : addrMax + 1 < a + n) :
    memReadList a n s = .error .invalidOperand := by
  induction n generalizing a with
  | zero => omega
  | succ n ih =>
    rw [memReadList]
    by_cases ha : addrMax < a
    · rw [memRead_error ha]
    · rw [memRead_ok (by omega), ih (by omega) (by omega)]

/-- Writing bytes in range writes them all. -/
theorem memWriteList_ok {a : Nat} {bs : List Byte} {s : State} (h : bs = [] ∨ a + bs.length ≤ addrMax + 1) :
    memWriteList a bs s = .ok (s.setMem (s.mem.writeList a bs)) := by
  induction bs generalizing a s with
  | nil => rfl
  | cons b bs ih =>
    simp only [List.length_cons, reduceCtorEq, false_or] at h
    rw [memWriteList, memWrite_ok (by omega)]
    exact ih (.inr (by omega))

/-- Writing bytes that run past `0xFFF` raises `InvalidOperand`. -/
theorem memWriteList_error {a : Nat} {bs : List Byte} {s : State} (h0 : bs ≠ []) (h : addrMax + 1 < a + bs.length) :
    memWriteList a bs s = .error .invalidOperand := by
  induction bs generalizing a s with
  | nil => exact absurd rfl h0
  | cons b bs ih =>
    simp only [List.length_cons] at h
    rw [memWriteList]
    by_cases ha : addrMax < a
    · rw [memWrite_error ha]
    · rw [memWrite_ok (by omega)]
      refine ih ?_ (by omega)
      rintro rfl
      simp at h
      omega

/-- What a fetch gives: the two bytes at `pc`, or `InvalidOperand` where the second is beyond `0xFFF` (R62). -/
theorem fetch_eq (s : State) :
    fetch s = if s.pc.toNat + 1 ≤ addrMax then .ok (s.byteAt s.pc.toNat ++ s.byteAt (s.pc.toNat + 1))
      else .error .invalidOperand := by
  unfold fetch
  by_cases h : s.pc.toNat + 1 ≤ addrMax
  · rw [memRead_ok h, memRead_ok (a := s.pc.toNat) (by omega), if_pos h]
  · rw [memRead_error (a := s.pc.toNat + 1) (by omega), if_neg h]
    by_cases h' : addrMax < s.pc.toNat
    · rw [memRead_error h']
    · rw [memRead_ok (by omega)]

end Sys2Proof.Machine
end

