-- ==== Sys2Proof/Laws/Ops.lean ====
section
/-! SUPPORT. What the shared operations can do: `orRaise`, the four ways to set `pc` (R67), the call stack (R19), the
register ranges of `FX55` and `FX65`. -/

namespace Sys2Proof.Machine

/-! ### `orRaise` -/

@[simp] theorem orRaise_ok {α : Type} (a : α) (k : α → Result) : orRaise (.ok a) k = k a := rfl

@[simp] theorem orRaise_error {α : Type} (e : Fault) (k : α → Result) : orRaise (.error e) k = .fault e := rfl

/-- A next state comes only through the value of the checked operation. -/
theorem orRaise_next {α : Type} {r : Except Fault α} {k : α → Result} {t : State} (h : orRaise r k = .next t) :
    ∃ a, r = .ok a ∧ k a = .next t := by
  cases r with
  | ok a => exact ⟨a, rfl, h⟩
  | error e => cases h

/-- An error is the checked operation's own, or comes after it. -/
theorem orRaise_fault {α : Type} {r : Except Fault α} {k : α → Result} {e : Fault} (h : orRaise r k = .fault e) :
    r = .error e ∨ ∃ a, r = .ok a ∧ k a = .fault e := by
  cases r with
  | ok a => exact .inr ⟨a, rfl, h⟩
  | error e' => cases h; exact .inl rfl

/-! ### `pc` -/

theorem jumpTo_ok {a : Nat} {s : State} (h : a ≤ addrMax) : jumpTo a s = .next (s.setPc (BitVec.ofNat 16 a)) := by
  rw [jumpTo, if_neg (by omega)]

theorem jumpTo_error {a : Nat} {s : State} (h : addrMax < a) : jumpTo a s = .fault .invalidOperand := by
  rw [jumpTo, if_pos h, raise]

/-- The whole of what a jump does. -/
theorem jumpTo_next {a : Nat} {s t : State} (h : jumpTo a s = .next t) :
    a ≤ addrMax ∧ t = s.setPc (BitVec.ofNat 16 a) := by
  by_cases ha : a ≤ addrMax
  · rw [jumpTo_ok ha] at h
    cases h
    exact ⟨ha, rfl⟩
  · rw [jumpTo_error (by omega)] at h
    cases h

/-- A jump raises no error but `InvalidOperand`, and only above `0xFFF`. -/
theorem jumpTo_fault {a : Nat} {s : State} {e : Fault} (h : jumpTo a s = .fault e) :
    addrMax < a ∧ e = .invalidOperand := by
  by_cases ha : a ≤ addrMax
  · rw [jumpTo_ok ha] at h
    cases h
  · rw [jumpTo_error (by omega)] at h
    cases h
    exact ⟨by omega, rfl⟩

theorem jumpTo_refused {a : Nat} {s : State} {r : Refusal} : jumpTo a s ≠ .refused r := by
  unfold jumpTo raise
  split <;> exact nofun

/-- An address in range is the value of the word that holds it. -/
theorem toNat_ofNat_of_le {a : Nat} (h : a ≤ addrMax) : (BitVec.ofNat 16 a).toNat = a := by
  rw [BitVec.toNat_ofNat]
  exact Nat.mod_eq_of_lt (by simp only [addrMax] at h; omega)

theorem advance_ok {s : State} (h : s.pc.toNat + 2 ≤ addrMax) :
    advance s = .next (s.setPc (BitVec.ofNat 16 (s.pc.toNat + 2))) := jumpTo_ok h

theorem advance_error {s : State} (h : addrMax < s.pc.toNat + 2) : advance s = .fault .invalidOperand := jumpTo_error h

/-- The whole of what `next` does. -/
theorem advance_next {s t : State} (h : advance s = .next t) :
    s.pc.toNat + 2 ≤ addrMax ∧ t = s.setPc (BitVec.ofNat 16 (s.pc.toNat + 2)) := jumpTo_next h

theorem skipIf_true (s : State) : skipIf true s = jumpTo (s.pc.toNat + 4) s := rfl

theorem skipIf_false (s : State) : skipIf false s = jumpTo (s.pc.toNat + 2) s := rfl

/-- The whole of what a skip does. -/
theorem skipIf_next {c : Bool} {s t : State} (h : skipIf c s = .next t) :
    ∃ a, a ≤ addrMax ∧ t = s.setPc (BitVec.ofNat 16 a) := ⟨_, jumpTo_next h⟩

/-! ### Call stack -/

theorem push_ok {v : Word} {s : State} (h : s.stack.length < stackDepth) :
    push v s = .ok (s.setStack (v :: s.stack)) := if_pos h

theorem push_error {v : Word} {s : State} (h : stackDepth ≤ s.stack.length) : push v s = .error .stackOverflow :=
  if_neg (by omega)

theorem pop_cons {t : Word} {rest : List Word} {s : State} (h : s.stack = t :: rest) :
    pop s = .ok (t, s.setStack rest) := by
  rw [pop, h]

theorem pop_nil {s : State} (h : s.stack = []) : pop s = .error .stackUnderflow := by
  rw [pop, h]

/-! ### Registers -/

theorem regIndex_ok {k : Nat} (h : k < numV) : regIndex k = .ok ⟨k, h⟩ := dif_pos h

/-- R13: an index beyond `0xF` fails. -/
theorem regIndex_error {k : Nat} (h : numV ≤ k) : regIndex k = .error .invalidOperand := dif_neg (by omega)

/-- Reading registers `k` to `k + n - 1` gives them in order. -/
theorem readRegs_ok {k n : Nat} {s : State} (h : k + n ≤ numV) :
    ∃ bs, readRegs k n s = .ok bs ∧ bs.length = n ∧
      ∀ (r : Reg), k ≤ r.val → r.val < k + n → bs[r.val - k]? = some (s.reg r) := by
  induction n generalizing k with
  | zero => exact ⟨[], rfl, rfl, fun r _ _ => by omega⟩
  | succ n ih =>
    obtain ⟨bs, hbs, hlen, hget⟩ := ih (k := k + 1) (by omega)
    refine ⟨s.reg ⟨k, by omega⟩ :: bs, ?_, by simp [hlen], fun r h1 h2 => ?_⟩
    · rw [readRegs, regIndex_ok (by omega), hbs]
    · by_cases hr : r.val = k
      · subst hr
        simp
      · rw [show r.val - k = r.val - (k + 1) + 1 by omega, List.getElem?_cons_succ]
        exact hget r (by omega) (by omega)

/-- Writing registers from `k` on gives each its byte and leaves everything else alone. -/
theorem writeRegs_ok {k : Nat} {bs : List Byte} {s : State} (h : k + bs.length ≤ numV) :
    ∃ V : RegFile, writeRegs k bs s = .ok { s with V := V } ∧
      ∀ r : Reg, V.get r = if r.val < k then s.reg r else bs.getD (r.val - k) (s.reg r) := by
  induction bs generalizing k s with
  | nil => exact ⟨s.V, rfl, fun r => by simp [State.reg]⟩
  | cons b bs ih =>
    simp only [List.length_cons] at h
    obtain ⟨V, hV, hget⟩ := ih (k := k + 1) (s := s.setReg ⟨k, by omega⟩ b) (by omega)
    refine ⟨V, ?_, fun r => ?_⟩
    · rw [writeRegs, regIndex_ok (by omega)]
      exact hV
    · rw [hget r, State.reg_setReg]
      by_cases h1 : r.val < k
      · simp [h1, show r.val < k + 1 by omega, Fin.ext_iff, show r.val ≠ k by omega]
      · by_cases h2 : r.val = k
        · simp [h2, Fin.ext_iff]
        · simp only [h1, if_false, show ¬ r.val < k + 1 by omega, Fin.ext_iff, h2]
          rw [show r.val - k = r.val - (k + 1) + 1 by omega, List.getD_cons_succ]

/-! ### Keys -/

theorem keyOperand_ok {x : Reg} {s : State} {k : Key} (h : (s.reg x).toNat = k.val) : keyOperand x s = .ok k := by
  rw [keyOperand, dif_pos (h ▸ k.isLt)]
  simp [h]

theorem keyOperand_error {x : Reg} {s : State} (h : 0xF < (s.reg x).toNat) :
    keyOperand x s = .error .invalidOperand := dif_neg (by simp only [numKeys]; omega)

end Sys2Proof.Machine
end

