-- ==== Sys2Proof/Laws/Exec.lean ====
section
/-! SUPPORT. Said once: everything an instruction that completes can do to the state. Frames and invariants follow from
`exec_next` by cases, without unfolding a meaning again. -/

namespace Sys2Proof.Machine

/-- `u` is `s` after the writes of instruction `i` other than `pc`, with the values left open. -/
def Effect (i : Instr) (s u : State) : Prop :=
  match i with
  | .cls => u = s.setDisp Display.clear
  | .ret => ∃ top rest, s.stack = top :: rest ∧ u = s.setStack rest
  | .jp _ | .jpV0 _ | .seImm _ _ | .sneImm _ _ | .seReg _ _ | .sneReg _ _ | .skp _ | .sknp _ => u = s
  | .call _ => s.stack.length < stackDepth ∧ s.pc.toNat + 2 ≤ addrMax ∧
      u = s.setStack (BitVec.ofNat 16 (s.pc.toNat + 2) :: s.stack)
  | .ldI _ | .ldFVx _ => ∃ v, u = s.setI v
  | .addIVx _ => ∃ v c, s.cfg.fx1eVf = false ∧ u = s.setI v ∨ s.cfg.fx1eVf = true ∧ u = (s.setI v).setVF c
  | .ldImm x _ | .addImm x _ | .ldReg x _ | .orReg x _ | .andReg x _ | .xorReg x _ | .ldVxDT x => ∃ b, u = s.setReg x b
  | .rnd x _ => ∃ b, u = (s.setReg x b).countDraw
  | .ldVxK x => s.kwait = true ∧ ∃ b, u = (s.setReg x b).setWait false none
  | .addReg x _ | .sub x _ | .subn x _ => ∃ b c, u = (s.setReg x b).setVF c
  | .shr x _ | .shl x _ => ∃ b c, u = (s.setVF c).setReg x b
  | .drw _ _ _ => ∃ d c, u = (s.setDisp d).setVF c
  | .ldDTVx _ => ∃ b, u = s.setDT b
  | .ldSTVx _ => ∃ b, u = s.setST b
  | .ldBVx _ => ∃ bs, bs.length = 3 ∧ indexBase s + bs.length ≤ addrMax + 1 ∧
      u = s.setMem (s.mem.writeList (indexBase s) bs)
  | .ldMemVx x => ∃ bs, bs.length = x.val + 1 ∧ indexBase s + bs.length ≤ addrMax + 1 ∧
      u = s.setMem (s.mem.writeList (indexBase s) bs)
  | .ldVxMem x => ∃ V : RegFile, u = { s with V := V } ∧ ∀ r : Reg, x.val < r.val → V.get r = s.reg r

theorem execRet_next {s t : State} (h : execRet s = .next t) :
    ∃ u a, a ≤ addrMax ∧ t = u.setPc (BitVec.ofNat 16 a) ∧ Effect .ret s u := by
  obtain ⟨⟨top, s'⟩, h1, h2⟩ := orRaise_next h
  obtain ⟨ha, ht⟩ := jumpTo_next h2
  cases hs : s.stack with
  | nil => rw [pop_nil hs] at h1; cases h1
  | cons a rest =>
    rw [pop_cons hs] at h1
    cases h1
    exact ⟨_, _, ha, ht, _, _, hs, rfl⟩

theorem execCall_next {nnn : Addr} {s t : State} (h : execCall nnn s = .next t) :
    ∃ u a, a ≤ addrMax ∧ t = u.setPc (BitVec.ofNat 16 a) ∧ Effect (.call nnn) s u := by
  obtain ⟨s', h1, h2⟩ := orRaise_next h
  by_cases hd : s.stack.length < stackDepth
  · rw [push_ok hd] at h1
    cases h1
    split at h2
    · cases h2
    · next hp =>
      obtain ⟨ha, ht⟩ := jumpTo_next h2
      exact ⟨_, _, ha, ht, hd, Nat.le_of_not_lt hp, rfl⟩
  · rw [push_error (by omega)] at h1
    cases h1

theorem storeList_next {bs : List Byte} {s t : State} (h0 : bs ≠ [])
    (h : orRaise (memWriteList (indexBase s) bs s) advance = .next t) :
    indexBase s + bs.length ≤ addrMax + 1 ∧ ∃ a, a ≤ addrMax ∧
      t = (s.setMem (s.mem.writeList (indexBase s) bs)).setPc (BitVec.ofNat 16 a) := by
  obtain ⟨u, h1, h2⟩ := orRaise_next h
  by_cases hr : indexBase s + bs.length ≤ addrMax + 1
  · rw [memWriteList_ok (.inr hr)] at h1
    cases h1
    exact ⟨hr, _, advance_next h2⟩
  · rw [memWriteList_error h0 (by omega)] at h1
    cases h1

theorem execLdVxMem_next {x : Reg} {s t : State} (h : execLdVxMem x s = .next t) :
    ∃ u a, a ≤ addrMax ∧ t = u.setPc (BitVec.ofNat 16 a) ∧ Effect (.ldVxMem x) s u := by
  obtain ⟨bs, h0, h1⟩ := orRaise_next h
  obtain ⟨u, h1, h2⟩ := orRaise_next h1
  obtain ⟨ha, ht⟩ := advance_next h2
  have hx := x.isLt
  by_cases hr : indexBase s + (x.val + 1) ≤ addrMax + 1
  · rw [memReadList_ok (.inr hr)] at h0
    cases h0
    obtain ⟨V, hV, hget⟩ := writeRegs_ok (k := 0) (s := s)
      (bs := (List.range (x.val + 1)).map fun k => s.byteAt (indexBase s + k)) (by simp)
    rw [hV] at h1
    cases h1
    refine ⟨_, _, ha, ht, V, rfl, fun r hr => ?_⟩
    rw [hget r, if_neg (by omega), List.getD_eq_default _ _ (by simpa using hr)]
  · rw [memReadList_error (by omega) (by omega)] at h0
    cases h0

/-- Everything an instruction that completes can do: an `FX0A` that starts or holds a wait, or the instruction's writes
and a new `pc` in range. -/
theorem exec_next {i : Instr} {s t : State} (h : exec i s = .next t) :
    (∃ x, i = .ldVxK x ∧
      (s.kwait = false ∧ t = s.setWait true none ∨ s.kwait = true ∧ s.klatch = none ∧ t = s)) ∨
    ∃ u a, a ≤ addrMax ∧ t = u.setPc (BitVec.ofNat 16 a) ∧ Effect i s u := by
  cases i <;> simp only [exec] at h
  case ldVxK x =>
    unfold execLdVxK at h
    split at h
    · next hk =>
      split at h
      · exact .inr ⟨_, _, (advance_next h).1, (advance_next h).2, hk, _, rfl⟩
      · next hl =>
        cases h
        exact .inl ⟨x, rfl, .inr ⟨hk, hl, rfl⟩⟩
    · next hk =>
      cases h
      exact .inl ⟨x, rfl, .inl ⟨by simpa using hk, rfl⟩⟩
  all_goals right
  case ret => exact execRet_next h
  case call => exact execCall_next h
  case ldVxMem => exact execLdVxMem_next h
  case jp | jpV0 => exact ⟨_, _, (jumpTo_next h).1, (jumpTo_next h).2, rfl⟩
  case seImm | sneImm | seReg | sneReg =>
    obtain ⟨a, ha, ht⟩ := skipIf_next h
    exact ⟨_, _, ha, ht, rfl⟩
  case skp | sknp =>
    obtain ⟨k, -, h2⟩ := orRaise_next h
    obtain ⟨a, ha, ht⟩ := skipIf_next h2
    exact ⟨_, _, ha, ht, rfl⟩
  case drw =>
    obtain ⟨rows, -, h2⟩ := orRaise_next h
    exact ⟨_, _, (advance_next h2).1, (advance_next h2).2, _, _, rfl⟩
  case addIVx x =>
    obtain ⟨ha, ht⟩ := advance_next h
    refine ⟨_, _, ha, ht, s.I + (s.reg x).setWidth 16, indexOverflow s.I (s.reg x), ?_⟩
    cases hc : s.cfg.fx1eVf
    · exact .inl ⟨rfl, by simp⟩
    · exact .inr ⟨rfl, by simp⟩
  case ldBVx x =>
    obtain ⟨hr, a, ha, ht⟩ := storeList_next (by simp [decimalDigits]) h
    exact ⟨_, _, ha, ht, _, rfl, hr, rfl⟩
  case ldMemVx x =>
    obtain ⟨bs, h0, h1⟩ := orRaise_next h
    obtain ⟨bs', hb, hlen, -⟩ := readRegs_ok (k := 0) (n := x.val + 1) (s := s)
      (by have := x.isLt; simp only [numV] at *; omega)
    rw [hb] at h0
    cases h0
    obtain ⟨hr, a, ha, ht⟩ := storeList_next (by rintro rfl; simp at hlen) h1
    exact ⟨_, _, ha, ht, _, hlen, hr, rfl⟩
  case cls => exact ⟨_, _, (advance_next h).1, (advance_next h).2, rfl⟩
  case addReg | sub | subn | shr | shl => exact ⟨_, _, (advance_next h).1, (advance_next h).2, _, _, rfl⟩
  all_goals exact ⟨_, _, (advance_next h).1, (advance_next h).2, _, rfl⟩

/-- No meaning answers with a refusal. -/
theorem exec_not_refused (i : Instr) (s : State) (r : Refusal) : exec i s ≠ .refused r := by
  have hj : ∀ a s', jumpTo a s' ≠ .refused r := fun a s' => jumpTo_refused
  have ha : ∀ s', advance s' ≠ .refused r := fun s' => jumpTo_refused
  have hk : ∀ c s', skipIf c s' ≠ .refused r := fun c s' => jumpTo_refused
  have ho : ∀ {α : Type} (q : Except Fault α) (k : α → Result), (∀ a, k a ≠ .refused r) → orRaise q k ≠ .refused r := by
    intro α q k hq
    cases q with
    | ok a => exact hq a
    | error e => exact nofun
  cases i
  case ldVxK x =>
    simp only [exec, execLdVxK, hold]
    split
    · split
      · exact ha _
      · exact nofun
    · exact nofun
  case ret => exact ho _ _ fun a => hj _ _
  case call =>
    refine ho _ _ fun a => ?_
    split
    · exact nofun
    · exact hj _ _
  case drw => exact ho _ _ fun a => ha _
  case skp | sknp => exact ho _ _ fun a => hk _ _
  case ldBVx => exact ho _ _ fun a => ha _
  case ldMemVx | ldVxMem => exact ho _ _ fun a => ho _ _ fun b => ha _
  case jp | jpV0 => exact hj _ _
  case seImm | sneImm | seReg | sneReg => exact hk _ _
  all_goals exact ha _

end Sys2Proof.Machine
end

