-- ==== Sys2Proof/Laws/Draw.lean ====
section
/-! SUPPORT. Said once: what `DXYN` does when it completes, in terms of the sprite bit over each pixel. -/

namespace Sys2Proof.Machine

/-- The rows `DXYN` reads. -/
def spriteRows (n : Nibble) (s : State) : List Byte := (List.range n.toNat).map fun k => s.byteAt (s.I.toNat + k)

/-- A pixel is covered by a set bit of the sprite exactly where `spriteBit` says so. -/
theorem covers_iff_spriteBit {x y : Reg} {n : Nibble} {s : State} {py : Fin dispH} {px : Fin dispW} :
    Covers (startColumn x s) (startRow y s) 0 (spriteRows n s) py px ↔ spriteBit x y n s py px = true := by
  have hx : startColumn x s < dispW := Nat.mod_lt _ (by decide)
  have hy : startRow y s < dispH := Nat.mod_lt _ (by decide)
  have hn : n.toNat < 16 := n.isLt
  simp only [spriteBit, Bool.and_eq_true, decide_eq_true_eq]
  constructor
  · rintro ⟨k, c, hk, hc, ht, hb⟩
    simp only [spriteRows, List.length_map, List.length_range] at hk
    obtain ⟨h1, h2⟩ := (Touches_iff hx hy (by simp only [dispH]; omega) (by simp only [dispW]; omega)).1 ht
    simp only [spriteRows, List.getElem_map, List.getElem_range] at hb
    simp only [startColumn, startRow, Nat.zero_add] at h1 h2
    rw [← h1, ← h2]
    exact ⟨⟨hc, hk⟩, hb⟩
  · rintro ⟨⟨hc, hk⟩, hb⟩
    refine ⟨_, _, by simpa [spriteRows] using hk, hc, ?_, by simpa [spriteRows] using hb⟩
    refine (Touches_iff hx hy ?_ ?_).2 ⟨Nat.zero_add _, rfl⟩
    · simp only [dispH] at *
      omega
    · simp only [dispW] at *
      omega

/-- Every set bit of a sprite row is over some pixel. -/
theorem exists_spriteBit_iff {x y : Reg} {n : Nibble} {s : State} :
    (∃ py px, spriteBit x y n s py px = true) ↔ ∃ r < n.toNat, s.byteAt (s.I.toNat + r) ≠ 0 := by
  simp only [← covers_iff_spriteBit]
  constructor
  · rintro ⟨py, px, k, c, hk, -, -, hb⟩
    simp only [spriteRows, List.length_map, List.length_range] at hk
    simp only [spriteRows, List.getElem_map, List.getElem_range] at hb
    refine ⟨k, hk, fun h0 => ?_⟩
    rw [h0] at hb
    simp at hb
  · rintro ⟨r, hr, hb⟩
    obtain ⟨i, hi, hbit⟩ : ∃ i, i < 8 ∧ (s.byteAt (s.I.toNat + r)).getLsbD i = true := by
      by_contra hn
      push Not at hn
      exact hb (BitVec.eq_of_getLsbD_eq fun i hi => by simpa using hn i hi)
    refine ⟨_, _, r, 7 - i, by simpa [spriteRows] using hr, by omega, ⟨rfl, rfl⟩, ?_⟩
    rw [show 7 - (7 - i) = i by omega]
    simpa [spriteRows] using hbit

/-- The rows of a sprite in range are read. -/
theorem spriteRows_ok {n : Nibble} {s : State} (h : ∀ r < n.toNat, s.I.toNat + r ≤ addrMax) :
    memReadList (indexBase s) n.toNat s = .ok (spriteRows n s) := by
  refine memReadList_ok ?_
  by_cases h0 : n.toNat = 0
  · exact .inl h0
  · have := h (n.toNat - 1) (by omega)
    exact .inr (by simp only [indexBase]; omega)

/-- What a draw that completes answers. -/
theorem execDrw_ok {x y : Reg} {n : Nibble} {s : State} (hI : ∀ r < n.toNat, s.I.toNat + r ≤ addrMax)
    (hp : s.pc.toNat + 2 ≤ addrMax) :
    ∃ d hit, exec (.drw x y n) s = .next (((s.setDisp d).setVF hit).setPc (BitVec.ofNat 16 (s.pc.toNat + 2))) ∧
      (∀ py px, Display.pixel d py px = (Display.pixel s.disp py px ^^ spriteBit x y n s py px)) ∧
      (hit = true ↔ ∃ py px, Display.pixel s.disp py px = true ∧ spriteBit x y n s py px = true) := by
  refine ⟨(drawSprite (spriteRows n s) (startColumn x s) (startRow y s) s.disp).disp,
    (drawSprite (spriteRows n s) (startColumn x s) (startRow y s) s.disp).hit, ?_, fun py px => ?_, ?_⟩
  · simp only [exec, execDrw, spriteRows_ok hI, orRaise_ok]
    exact advance_ok hp
  · rcases drawSprite_pixel (spriteRows n s) (startColumn x s) (startRow y s) s.disp py px with ⟨h, hc⟩ | ⟨h, hc⟩
    · rw [h, covers_iff_spriteBit.1 hc]
    · rw [covers_iff_spriteBit, Bool.not_eq_true] at hc
      rw [h, hc, Bool.xor_false]
  · simp only [drawSprite_hit, covers_iff_spriteBit, and_comm]

end Sys2Proof.Machine
end

