-- ==== Sys2Proof/Laws/Failure.lean ====
section
/-! SUPPORT. Said once: exactly when an instruction raises an error, and which (R109, R112). Claims about errors follow
from `exec_fault_iff` by cases. -/

namespace Sys2Proof.Machine

/-- Instruction `i` raises `e` in state `s`. -/
def Fails (i : Instr) (s : State) (e : Fault) : Prop :=
  match i with
  | .jp _ => False
  | .ret => s.stack = [] ∧ e = .stackUnderflow ∨
      (∃ top rest, s.stack = top :: rest ∧ addrMax < top.toNat) ∧ e = .invalidOperand
  | .call _ => stackDepth ≤ s.stack.length ∧ e = .stackOverflow ∨
      (s.stack.length < stackDepth ∧ addrMax < s.pc.toNat + 2) ∧ e = .invalidOperand
  | .jpV0 nnn => addrMax < nnn.toNat + (jumpOffset nnn s).toNat ∧ e = .invalidOperand
  | .seImm x nn => addrMax < s.pc.toNat + (if s.reg x == nn then 4 else 2) ∧ e = .invalidOperand
  | .sneImm x nn => addrMax < s.pc.toNat + (if s.reg x != nn then 4 else 2) ∧ e = .invalidOperand
  | .seReg x y => addrMax < s.pc.toNat + (if s.reg x == s.reg y then 4 else 2) ∧ e = .invalidOperand
  | .sneReg x y => addrMax < s.pc.toNat + (if s.reg x != s.reg y then 4 else 2) ∧ e = .invalidOperand
  | .skp x => (0xF < (s.reg x).toNat ∨ ∃ k : Key, (s.reg x).toNat = k.val ∧
      addrMax < s.pc.toNat + (if s.keyDown k then 4 else 2)) ∧ e = .invalidOperand
  | .sknp x => (0xF < (s.reg x).toNat ∨ ∃ k : Key, (s.reg x).toNat = k.val ∧
      addrMax < s.pc.toNat + (if !s.keyDown k then 4 else 2)) ∧ e = .invalidOperand
  | .ldVxK _ => (s.kwait = true ∧ s.klatch ≠ none ∧ addrMax < s.pc.toNat + 2) ∧ e = .invalidOperand
  | .drw _ _ n => (0 < n.toNat ∧ addrMax + 1 < s.I.toNat + n.toNat ∨ addrMax < s.pc.toNat + 2) ∧ e = .invalidOperand
  | .ldBVx _ => (addrMax < s.I.toNat + 2 ∨ addrMax < s.pc.toNat + 2) ∧ e = .invalidOperand
  | .ldMemVx x | .ldVxMem x => (addrMax < s.I.toNat + x.val ∨ addrMax < s.pc.toNat + 2) ∧ e = .invalidOperand
  | .cls | .ldImm _ _ | .addImm _ _ | .ldReg _ _ | .orReg _ _ | .andReg _ _ | .xorReg _ _ | .addReg _ _ | .sub _ _
  | .shr _ _ | .subn _ _ | .shl _ _ | .ldI _ | .rnd _ _ | .ldVxDT _ | .ldDTVx _ | .ldSTVx _ | .addIVx _ | .ldFVx _ =>
    addrMax < s.pc.toNat + 2 ∧ e = .invalidOperand

theorem jumpTo_fault_iff {a : Nat} {s : State} {e : Fault} :
    jumpTo a s = .fault e ↔ addrMax < a ∧ e = .invalidOperand := by
  constructor
  · intro h
    by_cases ha : a ≤ addrMax
    · rw [jumpTo_ok ha] at h
      cases h
    · rw [jumpTo_error (by omega)] at h
      cases h
      exact ⟨by omega, rfl⟩
  · rintro ⟨ha, rfl⟩
    exact jumpTo_error ha

theorem advance_fault_iff {s : State} {e : Fault} :
    advance s = .fault e ↔ addrMax < s.pc.toNat + 2 ∧ e = .invalidOperand := jumpTo_fault_iff

theorem skipIf_fault_iff {c : Bool} {s : State} {e : Fault} :
    skipIf c s = .fault e ↔ addrMax < s.pc.toNat + (if c then 4 else 2) ∧ e = .invalidOperand := jumpTo_fault_iff

theorem execRet_fault_iff {s : State} {e : Fault} : execRet s = .fault e ↔ Fails .ret s e := by
  unfold execRet Fails
  cases hs : s.stack with
  | nil =>
    simp only [pop_nil hs, orRaise_error, Host.Outcome.fault.injEq, true_and, reduceCtorEq, false_and, exists_false,
      or_false]
    exact eq_comm
  | cons top rest => simp [pop_cons hs, jumpTo_fault_iff]

theorem execCall_fault_iff {nnn : Addr} {s : State} {e : Fault} :
    execCall nnn s = .fault e ↔ Fails (.call nnn) s e := by
  have hn : nnn.toNat ≤ addrMax := Nat.le_of_lt_succ nnn.isLt
  unfold execCall Fails
  by_cases hd : s.stack.length < stackDepth
  · rw [push_ok hd, orRaise_ok]
    by_cases hp : addrMax < s.pc.toNat + 2
    · rw [if_pos hp]
      simp only [raise, Host.Outcome.fault.injEq, hd, hp, Nat.not_le.2 hd, false_and, false_or, true_and]
      exact eq_comm
    · rw [if_neg hp, jumpTo_ok hn]
      simp only [reduceCtorEq, hp, Nat.not_le.2 hd, false_and, and_false, or_self]
  · rw [push_error (by omega)]
    simp only [orRaise_error, Host.Outcome.fault.injEq, Nat.not_lt.1 hd, hd, true_and, false_and, or_false]
    exact eq_comm

theorem keySkip_fault_iff {x : Reg} {s : State} {e : Fault} {c : Key → Bool} :
    orRaise (keyOperand x s) (fun k => skipIf (c k) s) = .fault e ↔
      (0xF < (s.reg x).toNat ∨ ∃ k : Key, (s.reg x).toNat = k.val ∧
        addrMax < s.pc.toNat + (if c k then 4 else 2)) ∧ e = .invalidOperand := by
  by_cases h : 0xF < (s.reg x).toNat
  · rw [keyOperand_error h]
    simp only [orRaise_error, Host.Outcome.fault.injEq, h, true_or, true_and]
    exact eq_comm
  · obtain ⟨k, hk⟩ : ∃ k : Key, (s.reg x).toNat = k.val :=
      ⟨⟨(s.reg x).toNat, by simp only [numKeys]; omega⟩, rfl⟩
    rw [keyOperand_ok hk, orRaise_ok, skipIf_fault_iff]
    simp only [h, false_or]
    constructor
    · exact fun ⟨h1, h2⟩ => ⟨⟨k, hk, h1⟩, h2⟩
    · rintro ⟨⟨j, hj, h1⟩, h2⟩
      obtain rfl : j = k := Fin.ext (by omega)
      exact ⟨h1, h2⟩

/-- A checked access to the index bytes followed by the new `pc`. -/
theorem indexed_fault_iff {α : Type} {r : Except Fault α} {s : State} {k : α → Result} {n : Nat} {e : Fault}
    (h0 : n = 0 ∨ s.I.toNat + n ≤ addrMax + 1 → ∃ a, r = .ok a)
    (h1 : 0 < n → addrMax + 1 < s.I.toNat + n → r = .error .invalidOperand)
    (hk : ∀ a, r = .ok a → (k a = .fault e ↔ addrMax < s.pc.toNat + 2 ∧ e = .invalidOperand)) :
    orRaise r k = .fault e ↔
      (0 < n ∧ addrMax + 1 < s.I.toNat + n ∨ addrMax < s.pc.toNat + 2) ∧ e = .invalidOperand := by
  by_cases h : 0 < n ∧ addrMax + 1 < s.I.toNat + n
  · rw [h1 h.1 h.2]
    simp only [orRaise_error, Host.Outcome.fault.injEq, h, and_self, true_or, true_and]
    exact eq_comm
  · obtain ⟨a, ha⟩ := h0 (by omega)
    rw [ha, orRaise_ok, hk a ha]
    simp only [h, false_or]

theorem storeList_fault_iff {bs : List Byte} {s : State} {e : Fault} (h0 : bs ≠ []) :
    orRaise (memWriteList (indexBase s) bs s) advance = .fault e ↔
      (0 < bs.length ∧ addrMax + 1 < s.I.toNat + bs.length ∨ addrMax < s.pc.toNat + 2) ∧ e = .invalidOperand := by
  refine indexed_fault_iff (fun h => ⟨_, memWriteList_ok (h.imp List.eq_nil_of_length_eq_zero id)⟩)
    (fun _ h => memWriteList_error h0 h) fun a ha => ?_
  by_cases h : s.I.toNat + bs.length ≤ addrMax + 1
  · rw [indexBase, memWriteList_ok (.inr h)] at ha
    cases ha
    exact advance_fault_iff
  · rw [indexBase, memWriteList_error h0 (by omega)] at ha
    cases ha

/-- Exactly when an instruction raises an error, and which. -/
theorem exec_fault_iff {i : Instr} {s : State} {e : Fault} : exec i s = .fault e ↔ Fails i s e := by
  cases i
  case ret => exact execRet_fault_iff
  case call => exact execCall_fault_iff
  case jp nnn =>
    have hn : nnn.toNat ≤ addrMax := Nat.le_of_lt_succ nnn.isLt
    simp only [exec, execJp, jumpTo_ok hn, Fails, reduceCtorEq]
  case jpV0 => exact jumpTo_fault_iff
  case seImm | sneImm | seReg | sneReg => exact skipIf_fault_iff
  case skp => exact keySkip_fault_iff
  case sknp => exact keySkip_fault_iff (c := fun k => !s.keyDown k)
  case ldVxK x =>
    simp only [exec, execLdVxK, Fails]
    split
    · next hk =>
      split
      · next k hl => rw [advance_fault_iff]; simp [hk, hl]
      · next hl => simp [hl, hold]
    · next hk => simp [hk, hold]
  case drw x y n =>
    refine indexed_fault_iff (n := n.toNat) (fun h => ⟨_, memReadList_ok h⟩) (fun h0 h => memReadList_error h0 h) ?_
    exact fun a _ => advance_fault_iff
  case ldBVx x =>
    refine (storeList_fault_iff (bs := decimalDigits (s.reg x)) (by simp [decimalDigits])).trans ?_
    simp only [decimalDigits, List.length_cons, List.length_nil, Fails, addrMax]
    exact and_congr_left fun _ => by omega
  case ldMemVx x =>
    have hx := x.isLt
    obtain ⟨bs, hb, hlen, -⟩ := readRegs_ok (k := 0) (n := x.val + 1) (s := s) (by simp only [numV] at *; omega)
    simp only [exec, execLdMemVx, hb, orRaise_ok]
    rw [storeList_fault_iff (by rintro rfl; simp at hlen), hlen]
    simp only [Fails, addrMax]
    exact and_congr_left fun _ => by omega
  case ldVxMem x =>
    have hx := x.isLt
    refine (indexed_fault_iff (n := x.val + 1) (fun h => ⟨_, memReadList_ok h⟩) (fun h0 h => memReadList_error h0 h)
      fun bs hb => ?_).trans ?_
    · have hlen : bs.length = x.val + 1 := by
        by_cases h : s.I.toNat + (x.val + 1) ≤ addrMax + 1
        · rw [memReadList_ok (.inr h)] at hb
          cases hb
          simp
        · rw [memReadList_error (by omega) (by omega)] at hb
          cases hb
      obtain ⟨V, hV, -⟩ := writeRegs_ok (k := 0) (bs := bs) (s := s) (by simp only [numV] at *; omega)
      rw [hV, orRaise_ok]
      exact advance_fault_iff
    · simp only [Fails, addrMax]
      exact and_congr_left fun _ => by omega
  case addIVx x =>
    simp only [exec, execAddIVx, advance_fault_iff, Fails]
    split <;> simp
  all_goals exact advance_fault_iff

end Sys2Proof.Machine
end

