-- ==== Sys2Proof/Laws/Transactions.lean ====
section
/-! SUPPORT. What reset, the tick and a key event leave in each field, and what a step does in terms of its
instruction. -/

namespace Sys2Proof.Machine

/-! ### Reset -/

@[simp] theorem State.resetWith_mem (c : Config) : (State.resetWith c).mem = Memory.withFont c.font := rfl
@[simp] theorem State.resetWith_V (c : Config) : (State.resetWith c).V = Vector.replicate numV 0 := rfl
@[simp] theorem State.resetWith_I (c : Config) : (State.resetWith c).I = 0 := rfl
@[simp] theorem State.resetWith_pc (c : Config) : (State.resetWith c).pc = 0x200 := rfl
@[simp] theorem State.resetWith_stack (c : Config) : (State.resetWith c).stack = [] := rfl
@[simp] theorem State.resetWith_DT (c : Config) : (State.resetWith c).DT = 0 := rfl
@[simp] theorem State.resetWith_ST (c : Config) : (State.resetWith c).ST = 0 := rfl
@[simp] theorem State.resetWith_disp (c : Config) : (State.resetWith c).disp = Display.clear := rfl
@[simp] theorem State.resetWith_key (c : Config) : (State.resetWith c).key = Vector.replicate numKeys false := rfl
@[simp] theorem State.resetWith_kwait (c : Config) : (State.resetWith c).kwait = false := rfl
@[simp] theorem State.resetWith_klatch (c : Config) : (State.resetWith c).klatch = none := rfl
@[simp] theorem State.resetWith_cfg (c : Config) : (State.resetWith c).cfg = c := rfl

/-- A font written into empty memory keeps the canonical form. -/
theorem Memory.wf_withFont (f : Font) : (Memory.withFont f).wf = true :=
  Memory.wf_writeList (by rw [Vector.length_toList]; decide) rfl

/-! ### Tick -/

@[simp] theorem tickTimers_mem (s : State) : (tickTimers s).mem = s.mem := rfl
@[simp] theorem tickTimers_V (s : State) : (tickTimers s).V = s.V := rfl
@[simp] theorem tickTimers_pc (s : State) : (tickTimers s).pc = s.pc := rfl
@[simp] theorem tickTimers_stack (s : State) : (tickTimers s).stack = s.stack := rfl
@[simp] theorem tickTimers_kwait (s : State) : (tickTimers s).kwait = s.kwait := rfl
@[simp] theorem tickTimers_klatch (s : State) : (tickTimers s).klatch = s.klatch := rfl
@[simp] theorem tickTimers_I (s : State) : (tickTimers s).I = s.I := rfl
@[simp] theorem tickTimers_disp (s : State) : (tickTimers s).disp = s.disp := rfl
@[simp] theorem tickTimers_key (s : State) : (tickTimers s).key = s.key := rfl
@[simp] theorem tickTimers_cfg (s : State) : (tickTimers s).cfg = s.cfg := rfl
@[simp] theorem tickTimers_draws (s : State) : (tickTimers s).draws = s.draws := rfl
@[simp] theorem tickTimers_reg (s : State) (r : Reg) : (tickTimers s).reg r = s.reg r := rfl
@[simp] theorem tickTimers_keyDown (s : State) (k : Key) : (tickTimers s).keyDown k = s.keyDown k := rfl

theorem decrement_toNat (b : Byte) : (decrement b).toNat = b.toNat - 1 := by
  unfold decrement
  split
  · rw [BitVec.toNat_sub_of_le (by simp [BitVec.le_def]; omega)]
    rfl
  · omega

/-! ### Key events -/

/-- A key event touches only `key` and `klatch`. -/
theorem pressKey_eq (k : Key) (p : Bool) (s : State) :
    pressKey k p s = (s.setWait s.kwait
      (if p && !s.keyDown k && s.kwait && s.klatch.isNone then some k else s.klatch)).setKey k p := by
  unfold pressKey
  dsimp only
  split <;> rfl

@[simp] theorem pressKey_mem (k : Key) (p : Bool) (s : State) : (pressKey k p s).mem = s.mem := by simp [pressKey_eq]
@[simp] theorem pressKey_V (k : Key) (p : Bool) (s : State) : (pressKey k p s).V = s.V := by simp [pressKey_eq]
@[simp] theorem pressKey_pc (k : Key) (p : Bool) (s : State) : (pressKey k p s).pc = s.pc := by simp [pressKey_eq]
@[simp] theorem pressKey_stack (k : Key) (p : Bool) (s : State) : (pressKey k p s).stack = s.stack := by
  simp [pressKey_eq]
@[simp] theorem pressKey_kwait (k : Key) (p : Bool) (s : State) : (pressKey k p s).kwait = s.kwait := by
  simp [pressKey_eq]
@[simp] theorem pressKey_I (k : Key) (p : Bool) (s : State) : (pressKey k p s).I = s.I := by simp [pressKey_eq]
@[simp] theorem pressKey_cfg (k : Key) (p : Bool) (s : State) : (pressKey k p s).cfg = s.cfg := by simp [pressKey_eq]
@[simp] theorem pressKey_disp (k : Key) (p : Bool) (s : State) : (pressKey k p s).disp = s.disp := by
  simp [pressKey_eq]
@[simp] theorem pressKey_reg (k : Key) (p : Bool) (s : State) (r : Reg) : (pressKey k p s).reg r = s.reg r := by
  simp [pressKey_eq]

/-- The latch after a key event: the key, on its first edge in a wait, and otherwise as before. -/
theorem pressKey_klatch (k : Key) (p : Bool) (s : State) : (pressKey k p s).klatch =
    if p && !s.keyDown k && s.kwait && s.klatch.isNone then some k else s.klatch := by
  simp [pressKey_eq]

theorem pressKey_keyDown (k j : Key) (p : Bool) (s : State) :
    (pressKey k p s).keyDown j = if j = k then p else s.keyDown j := by
  rw [pressKey_eq, State.keyDown_setKey]
  simp

/-! ### Step -/

/-- A fetch depends on memory and `pc` alone. -/
theorem fetch_congr {s t : State} (hm : t.mem = s.mem) (hp : t.pc = s.pc) : fetch t = fetch s := by
  simp only [fetch_eq, State.byteAt, hm, hp]

theorem step_of_decode {s : State} {op : Word} {i : Instr} (hf : fetch s = .ok op) (hd : decodeWord op = some i) :
    step s = exec i s := by
  simp [step, hf, hd]

/-- A state that a step of a machine does not change stays under any number of steps. -/
theorem coreRun_of_fixed {M : Host.Core} {s : M.State} (h : M.step s = .next s) (n : Nat) : M.run n s = .next s := by
  induction n with
  | zero => rfl
  | succ n ih =>
    rw [Host.Core.run, h]
    exact ih

theorem run_of_fixed {s : State} (h : step s = .next s) (n : Nat) : Sys2Proof.core.run n s = .next s :=
  coreRun_of_fixed (M := Sys2Proof.core) h n

/-- A step that completes is its instruction completing. -/
theorem step_next {s t : State} (h : step s = .next t) :
    ∃ op i, fetch s = .ok op ∧ decodeWord op = some i ∧ exec i s = .next t := by
  obtain ⟨op, hf, h2⟩ := orRaise_next h
  split at h2
  · next i hd => exact ⟨op, i, hf, hd, h2⟩
  · cases h2

/-- A step that fails does so in the fetch, at an illegal word, or in its instruction. -/
theorem step_fault {s : State} {e : Fault} (h : step s = .fault e) :
    (fetch s = .error e) ∨ (∃ op, fetch s = .ok op ∧ decodeWord op = none ∧ e = .unimplementedOpcode) ∨
      ∃ op i, fetch s = .ok op ∧ decodeWord op = some i ∧ exec i s = .fault e := by
  rcases orRaise_fault h with h | ⟨op, hf, h2⟩
  · exact .inl h
  · split at h2
    · next i hd => exact .inr (.inr ⟨op, i, hf, hd, h2⟩)
    · next hd =>
      cases h2
      exact .inr (.inl ⟨op, hf, hd, rfl⟩)

/-- Exactly when a step fails, and how. -/
theorem step_fault_iff {s : State} {e : Fault} :
    step s = .fault e ↔ addrMax < s.pc.toNat + 1 ∧ e = .invalidOperand ∨
      (∃ op, fetch s = .ok op ∧ decodeWord op = none) ∧ e = .unimplementedOpcode ∨
      ∃ op i, fetch s = .ok op ∧ decodeWord op = some i ∧ Fails i s e := by
  constructor
  · intro h
    rcases step_fault h with hf | ⟨op, hf, hd, he⟩ | ⟨op, i, hf, hd, he⟩
    · rw [fetch_eq] at hf
      split at hf
      · cases hf
      · cases hf
        exact .inl ⟨by omega, rfl⟩
    · exact .inr (.inl ⟨⟨op, hf, hd⟩, he⟩)
    · exact .inr (.inr ⟨op, i, hf, hd, exec_fault_iff.1 he⟩)
  · rintro (⟨hp, rfl⟩ | ⟨⟨op, hf, hd⟩, rfl⟩ | ⟨op, i, hf, hd, he⟩)
    · rw [step, fetch_eq, if_neg (by omega), orRaise_error]
    · rw [step, hf, orRaise_ok, hd]
      rfl
    · rw [step_of_decode hf hd]
      exact exec_fault_iff.2 he

end Sys2Proof.Machine
end

