-- ==== Sys2Proof/Tests/Slice0.lean ====
section
/-! SUPPORT. The model's own tests. Expected results are the vectors of 95_test_vectors.md, named in each comment, or words
written out by hand from the encodings of 30_encoding.md. The last part shows, for every statement with hypotheses, that
a concrete state and operands meet them, at the boundary where the clauses meet. -/

set_option Elab.async false

namespace Sys2Proof.Tests

open Sys2Proof Sys2Proof.Machine

/-! ### Helpers -/

/-- Reset with the next step fetching at `pc`. -/
def from_ (pc : Word) : State := State.reset.setPc pc

/-- What a step of one word at `pc` leaves. -/
def ran (op : Word) (s : State) : Option State := nextState? (step (placeWord op s))

/-- The error a step of one word at `pc` raises. -/
def failed (op : Word) (s : State) : Option Fault := faultOf? (step (placeWord op s))

/-- Reset with two registers set. -/
def regs (x : Reg) (a : Byte) (y : Reg) (b : Byte) : State := (State.reset.setReg x a).setReg y b

/-- Reset with `I` set. -/
def index (i : Word) : State := State.reset.setI i

/-- A state with bytes put at an address. -/
def bytes (a : Nat) (bs : List Byte) (s : State) : State := s.setMem (s.mem.writeList a bs)

/-- A state in another configuration. -/
def withCfg (c : Config) (s : State) : State := { s with cfg := c }

/-- A state with a call stack of a given depth. -/
def depth (n : Nat) (s : State) : State := s.setStack (List.replicate n 0x206)

def shiftInPlace : Config := { Config.default with shiftSrc := .vx }
def jumpVx : Config := { Config.default with jumpReg := .vx }
def indexFlag : Config := { Config.default with fx1eVf := true }

/-- The pixels of a row that are on. -/
def lit (s : State) (py : Fin dispH) : List Nat :=
  ((List.finRange dispW).filter fun px => Display.pixel s.disp py px).map Fin.val

/-! ### WellFormed refuses each kind of ill-formed term -/

theorem test_wf_register_x : RawInstr.wellFormed { kind := .SKP, x := 16 } = false := by decide
theorem test_wf_register_y : RawInstr.wellFormed { kind := .ADD_REG, x := 1, y := 16 } = false := by decide
theorem test_wf_nibble : RawInstr.wellFormed { kind := .DRW, x := 1, y := 2, n := 16 } = false := by decide
theorem test_wf_byte : RawInstr.wellFormed { kind := .LD_IMM, x := 1, nn := 256 } = false := by decide
theorem test_wf_address : RawInstr.wellFormed { kind := .JP, nnn := 4096 } = false := by decide
theorem test_wf_no_instruction : RawInstr.wellFormed { kind := .UNIMPL } = false := by decide
theorem test_wf_largest_operands :
    RawInstr.instr? { kind := .DRW, x := 15, y := 15, n := 15 } = some (.drw 15 15 15) := by decide
theorem test_wf_ill_formed_gives_none : RawInstr.instr? { kind := .LD_I, nnn := 4096 } = none := by decide
theorem test_wf_key : keyIndexOk 15 = true ∧ keyIndexOk 16 = false := by decide
theorem test_wf_image : imageOk (List.replicate 3584 0) = true ∧ imageOk (List.replicate 3585 0) = false := by
  simp only [imageOk, List.length_replicate]
  decide

/-! ### Decoding: a word of every instruction, by hand from R53 and R57 -/

theorem test_decode_cls : decodeWord 0x00E0 = some .cls := by decide
theorem test_decode_ret : decodeWord 0x00EE = some .ret := by decide
theorem test_decode_jp : decodeWord 0x1FFF = some (.jp 0xFFF) := by decide
theorem test_decode_call : decodeWord 0x2300 = some (.call 0x300) := by decide
theorem test_decode_seImm : decodeWord 0x3342 = some (.seImm 3 0x42) := by decide
theorem test_decode_sneImm : decodeWord 0x4300 = some (.sneImm 3 0x00) := by decide
theorem test_decode_seReg : decodeWord 0x5AB0 = some (.seReg 0xA 0xB) := by decide
theorem test_decode_ldImm : decodeWord 0x6A9C = some (.ldImm 0xA 0x9C) := by decide
theorem test_decode_addImm : decodeWord 0x7005 = some (.addImm 0 5) := by decide
theorem test_decode_ldReg : decodeWord 0x8120 = some (.ldReg 1 2) := by decide
theorem test_decode_orReg : decodeWord 0x8121 = some (.orReg 1 2) := by decide
theorem test_decode_andReg : decodeWord 0x8122 = some (.andReg 1 2) := by decide
theorem test_decode_xorReg : decodeWord 0x8123 = some (.xorReg 1 2) := by decide
theorem test_decode_addReg : decodeWord 0x8AB4 = some (.addReg 0xA 0xB) := by decide
theorem test_decode_sub : decodeWord 0x8305 = some (.sub 3 0) := by decide
theorem test_decode_shr : decodeWord 0x8216 = some (.shr 2 1) := by decide
theorem test_decode_subn : decodeWord 0x8017 = some (.subn 0 1) := by decide
theorem test_decode_shl : decodeWord 0x8F1E = some (.shl 0xF 1) := by decide
theorem test_decode_sneReg : decodeWord 0x9AB0 = some (.sneReg 0xA 0xB) := by decide
theorem test_decode_ldI : decodeWord 0xA2F0 = some (.ldI 0x2F0) := by decide
theorem test_decode_jpV0 : decodeWord 0xB2F0 = some (.jpV0 0x2F0) := by decide
theorem test_decode_rnd : decodeWord 0xC3FF = some (.rnd 3 0xFF) := by decide
theorem test_decode_drw : decodeWord 0xD123 = some (.drw 1 2 3) := by decide
theorem test_decode_skp : decodeWord 0xE59E = some (.skp 5) := by decide
theorem test_decode_sknp : decodeWord 0xE5A1 = some (.sknp 5) := by decide
theorem test_decode_ldVxDT : decodeWord 0xF307 = some (.ldVxDT 3) := by decide
theorem test_decode_ldVxK : decodeWord 0xF50A = some (.ldVxK 5) := by decide
theorem test_decode_ldDTVx : decodeWord 0xF215 = some (.ldDTVx 2) := by decide
theorem test_decode_ldSTVx : decodeWord 0xF218 = some (.ldSTVx 2) := by decide
theorem test_decode_addIVx : decodeWord 0xF71E = some (.addIVx 7) := by decide
theorem test_decode_ldFVx : decodeWord 0xFA29 = some (.ldFVx 0xA) := by decide
theorem test_decode_ldBVx : decodeWord 0xFA33 = some (.ldBVx 0xA) := by decide
theorem test_decode_ldMemVx : decodeWord 0xFF55 = some (.ldMemVx 0xF) := by decide
theorem test_decode_ldVxMem : decodeWord 0xF765 = some (.ldVxMem 7) := by decide
/-- DEC4, DEC6, DEC10, DEC12, DEC14, DEC16, DEC21, DEC25, DEC26. -/
theorem test_decode_illegal : [0x00E1, 0x0123, 0x5AB1, 0x8AB8, 0x8ABF, 0x9ABF, 0xE5A0, 0xF766, 0xFFFF].map decodeWord =
    List.replicate 9 none := by decide
/-- The high byte comes first (R39), and the table's numbering has the word's own bits. -/
theorem test_decode_bytes : (decode [0x12, 0x34, 0x56]).toOption = some (.jp 0x234, [0x56]) ∧
    (decode [0x12]).toOption = none ∧ decodeTableWord 16 0x1234 = some (.jp 0x234) := by decide

/-- The source's own line (R60), a line of two programs (P1, P4), and a number outside its width. -/
theorem test_assemble : assemble ['A', 'D', 'D', ' ', 'V', '0', ',', '5'] = some (.addImm 0 5) ∧
    assemble ['L', 'D', ' ', 'V', '0', ',', ' ', '0', 'x', 'C', '8'] = some (.ldImm 0 0xC8) ∧
    assemble ['L', 'D', ' ', '[', 'I', ']', ',', ' ', 'V', 'F'] = some (.ldMemVx 0xF) ∧
    assemble ['L', 'D', ' ', 'V', '0', ',', ' ', '2', '5', '6'] = none := by decide +kernel

/-! ### Display (95_test_vectors.md, section 3) -/

/-- DSP1, DSP2. -/
theorem test_cls : (ran 0x00E0 (State.reset.setDisp (Display.clear.setPixel 7 3 true))).map (fun t => (lit t 7, t.pc)) =
    some ([], 0x202) := by decide +kernel
/-- DSP5: each pixel wraps at the right edge. -/
theorem test_drw_wraps : (ran 0xD011 (bytes 0x300 [0xFF] ((regs 0 0x3C 1 0x1F).setI 0x300))).map
    (fun t => (lit t 31, t.reg 15)) = some ([0, 1, 2, 3, 60, 61, 62, 63], 0) := by decide +kernel
/-- DSP8: an erased pixel sets `VF`. -/
theorem test_drw_collision : (ran 0xD011 (bytes 0x300 [0xC0]
    ((State.reset.setDisp (Display.clear.setPixel 0 0 true)).setI 0x300))).map
    (fun t => (lit t 0, t.reg 15, t.I)) = some ([1], 1, 0x300) := by decide +kernel

/-! ### Control transfer (section 4) -/

/-- CT6. -/
theorem test_ret : (ran 0x00EE ((from_ 0x300).setStack [0x206])).map (fun t => (t.pc, t.stack)) = some (0x206, []) := by
  decide
/-- CT7: E6. -/
theorem test_ret_empty : failed 0x00EE State.reset = some .stackUnderflow := by decide
/-- CT3: an odd target. -/
theorem test_jp : (ran 0x1201 State.reset).map (·.pc) = some 0x201 := by decide
/-- CT5. -/
theorem test_call : (ran 0x2300 (from_ 0x204)).map (fun t => (t.pc, t.stack)) = some (0x300, [0x206]) := by decide
/-- CT9, CT10: the stack check comes before the check of the return address. -/
theorem test_call_errors : failed 0x2400 (from_ 0xFFE) = some .invalidOperand ∧
    failed 0x2400 (depth 16 (from_ 0xFFE)) = some .stackOverflow := by decide
/-- CT13, CT14: the exact sum at the boundary. -/
theorem test_jpV0 : (ran 0xBF00 (State.reset.setReg 0 0xFF)).map (·.pc) = some 0xFFF ∧
    failed 0xBF01 (State.reset.setReg 0 0xFF) = some .invalidOperand := by decide
/-- CT16, CT17. -/
theorem test_jpV0_quirk : (ran 0xB2F0 (withCfg jumpVx (regs 0 0x10 2 0x05))).map (·.pc) = some 0x2F5 ∧
    (ran 0xB2F0 (regs 0 0x10 2 0x05)).map (·.pc) = some 0x300 := by decide

/-! ### Skips (section 5) -/

/-- SK1, SK2. -/
theorem test_seImm : (ran 0x3342 (State.reset.setReg 3 0x42)).map (·.pc) = some 0x204 ∧
    (ran 0x3343 (State.reset.setReg 3 0x42)).map (·.pc) = some 0x202 := by decide
/-- SK12, SK13: the skip that leaves memory. -/
theorem test_seImm_edge : failed 0x3000 (from_ 0xFFC) = some .invalidOperand ∧
    (ran 0x3000 ((from_ 0xFFC).setReg 0 1)).map (·.pc) = some 0xFFE := by decide
/-- SK3, SK4. -/
theorem test_sneImm : (ran 0x4342 (State.reset.setReg 3 0x42)).map (·.pc) = some 0x202 ∧
    (ran 0x4300 (State.reset.setReg 3 0x42)).map (·.pc) = some 0x204 := by decide
/-- SK5, SK6. -/
theorem test_seReg : (ran 0x5120 (regs 1 7 2 7)).map (·.pc) = some 0x204 ∧
    (ran 0x5120 (regs 1 7 2 8)).map (·.pc) = some 0x202 := by decide
/-- SK8, SK9. -/
theorem test_sneReg : (ran 0x9120 (regs 1 7 2 8)).map (·.pc) = some 0x204 ∧
    (ran 0x9110 State.reset).map (·.pc) = some 0x202 := by decide

/-! ### Loads, arithmetic, logic, shifts (section 6) -/

/-- AL1: E4. -/
theorem test_ldImm : (ran 0x6005 State.reset).map (fun t => (t.reg 0, t.pc)) = some (0x05, 0x202) := by decide
/-- AL44. -/
theorem test_ldImm_edge : failed 0x6005 (from_ 0xFFE) = some .invalidOperand := by decide
/-- AL3: no flag. -/
theorem test_addImm : (ran 0x70FF (regs 0 0 15 0x77)).map (fun t => (t.reg 0, t.reg 15)) = some (0xFF, 0x77) := by decide
/-- AL5. -/
theorem test_ldReg : (ran 0x8010 (State.reset.setReg 1 0x33)).map (·.reg 0) = some 0x33 := by decide
/-- AL6: `VF` is left alone. -/
theorem test_orReg : (ran 0x8011 ((regs 0 0x0F 1 0xF0).setReg 15 0x55)).map (fun t => (t.reg 0, t.reg 15)) =
    some (0xFF, 0x55) := by decide
/-- AL7. -/
theorem test_andReg : (ran 0x8012 (regs 0 0x3C 1 0x0F)).map (·.reg 0) = some 0x0C := by decide
/-- AL8. -/
theorem test_xorReg : (ran 0x8013 (regs 0 0x3C 1 0x0F)).map (·.reg 0) = some 0x33 := by decide
/-- AL14. -/
theorem test_addReg : (ran 0x8014 (regs 0 0xC8 1 0x64)).map (fun t => (t.reg 0, t.reg 15)) = some (0x2C, 1) := by decide
/-- AL17: the carry overwrites the sum. -/
theorem test_addReg_vf : (ran 0x8F04 (regs 15 0xF0 0 0x20)).map (·.reg 15) = some 1 := by decide
/-- AL19: equal operands borrow nothing. -/
theorem test_sub : (ran 0x8015 (regs 0 5 1 5)).map (fun t => (t.reg 0, t.reg 15)) = some (0, 1) := by decide
/-- AL22. -/
theorem test_sub_borrow : (ran 0x8015 (regs 0 0x0A 1 0x0B)).map (fun t => (t.reg 0, t.reg 15)) = some (0xFF, 0) := by
  decide
/-- AL25, AL30. -/
theorem test_shr : (ran 0x8016 (State.reset.setReg 1 0x05)).map (fun t => (t.reg 0, t.reg 15, t.reg 1)) =
    some (0x02, 1, 0x05) ∧
    (ran 0x8016 (withCfg shiftInPlace (regs 0 0x08 1 0xFF))).map (fun t => (t.reg 0, t.reg 15)) = some (0x04, 0) := by
  decide
/-- AL28, AL29: `VF` as the destination and as the source. -/
theorem test_shr_vf : (ran 0x8F16 (State.reset.setReg 1 0x06)).map (·.reg 15) = some 0x03 ∧
    (ran 0x80F6 (State.reset.setReg 15 0x05)).map (fun t => (t.reg 0, t.reg 15)) = some (0x02, 1) := by decide
/-- AL31, AL32. -/
theorem test_subn : (ran 0x8017 (regs 0 0x0B 1 0x0A)).map (fun t => (t.reg 0, t.reg 15)) = some (0xFF, 0) ∧
    (ran 0x8017 (regs 0 0x0A 1 0x0B)).map (fun t => (t.reg 0, t.reg 15)) = some (0x01, 1) := by decide
/-- AL35, AL40. -/
theorem test_shl : (ran 0x801E (State.reset.setReg 1 0x81)).map (fun t => (t.reg 0, t.reg 15)) = some (0x02, 1) ∧
    (ran 0x801E (withCfg shiftInPlace (regs 0 0x81 1 0x00))).map (fun t => (t.reg 0, t.reg 15)) = some (0x02, 1) := by
  decide
/-- AL39. -/
theorem test_shl_vf : (ran 0x8F1E (State.reset.setReg 1 0x40)).map (·.reg 15) = some 0x80 := by decide
/-- AL41, AL43: for the drawn byte named. -/
theorem test_rnd : (nextState? (rndWith 0xB6 3 0x0F State.reset)).map (·.reg 3) = some 0x06 ∧
    (nextState? (rndWith 0x5A 0 0xFF State.reset)).map (·.reg 0) = some 0x5A := by decide
/-- AL42: a mask of zero gives zero, whatever is drawn. -/
theorem test_rnd_zero (r : Byte) : (nextState? (rndWith r 0 0x00 State.reset)).map (·.reg 0) = some 0 := by
  rw [show (0x00 : Byte) = 0#8 from rfl, rndWith, BitVec.and_zero]
  decide

/-! ### Index register and memory (section 7) -/

/-- IM1. -/
theorem test_ldI : (ran 0xA2F0 State.reset).map (·.I) = some 0x02F0 := by decide
/-- IM2, IM3. -/
theorem test_addIVx : (ran 0xF21E ((regs 2 0x20 15 0x33).setI 0x0FF0)).map (fun t => (t.I, t.reg 15)) =
    some (0x1010, 0x33) ∧
    (ran 0xF21E (withCfg indexFlag ((regs 2 0x20 15 0x33).setI 0x0FF0))).map (fun t => (t.I, t.reg 15)) =
    some (0x1010, 1) := by decide
/-- IM4, IM5. -/
theorem test_addIVx_edges : (ran 0xF01E (withCfg indexFlag ((regs 0 1 15 1).setI 0x0FFE))).map (fun t => (t.I, t.reg 15)) =
    some (0x0FFF, 0) ∧ (ran 0xF01E ((State.reset.setReg 0 1).setI 0xFFFF)).map (·.I) = some 0x0000 := by decide
/-- IM9, IM11. -/
theorem test_ldFVx : (ran 0xF029 (State.reset.setReg 0 0x0F)).map (·.I) = some 0x009B ∧
    (ran 0xF029 (State.reset.setReg 0 0xFF)).map (·.I) = some 0x054B := by decide
/-- IM12. -/
theorem test_ldBVx : (ran 0xF033 ((State.reset.setReg 0 0x9C).setI 0x300)).map
    (fun t => ([0x300, 0x301, 0x302, 0x303].map t.byteAt, t.I)) = some ([1, 5, 6, 0], 0x300) := by decide +kernel
/-- IM15, IM16. -/
theorem test_ldBVx_edge : (ran 0xF033 ((State.reset.setReg 0 9).setI 0xFFD)).map
    (fun t => [0xFFD, 0xFFE, 0xFFF].map t.byteAt) = some [0, 0, 9] ∧
    failed 0xF033 ((State.reset.setReg 0 9).setI 0xFFE) = some .invalidOperand := by decide +kernel
/-- IM17. -/
theorem test_ldMemVx : (ran 0xF255 (((regs 0 1 1 2).setReg 2 3).setI 0x300)).map
    (fun t => ([0x300, 0x301, 0x302, 0x303].map t.byteAt, t.I)) = some ([1, 2, 3, 0], 0x300) := by decide +kernel
/-- IM19, IM27: the edge of memory, and the font written over. -/
theorem test_ldMemVx_edges : failed 0xF155 (index 0xFFF) = some .invalidOperand ∧
    (ran 0xF055 (index 0x050)).map (·.byteAt 0x050) = some 0 := by decide +kernel
/-- IM22. -/
theorem test_ldVxMem : (ran 0xF265 (bytes 0x300 [1, 5, 6] ((State.reset.setReg 3 0x77).setI 0x300))).map
    (fun t => [t.reg 0, t.reg 1, t.reg 2, t.reg 3]) = some [1, 5, 6, 0x77] := by decide +kernel
/-- IM25, IM26: the default font reads back (log 3). -/
theorem test_ldVxMem_edges : failed 0xF165 (index 0xFFF) = some .invalidOperand ∧
    (ran 0xF465 (index 0x050)).map (fun t => [t.reg 0, t.reg 1, t.reg 2, t.reg 3, t.reg 4]) =
    some [0xF0, 0x90, 0x90, 0x90, 0xF0] := by decide +kernel

/-! ### Keys and timers (section 8) -/

/-- K1, K3. -/
theorem test_skp : (ran 0xE19E ((State.reset.setReg 1 5).setKey 5 true)).map (·.pc) = some 0x204 ∧
    failed 0xE19E (State.reset.setReg 1 0x15) = some .invalidOperand := by decide
/-- K4, K5. -/
theorem test_sknp : (ran 0xE1A1 (State.reset.setReg 1 5)).map (·.pc) = some 0x204 ∧
    (ran 0xE1A1 ((State.reset.setReg 1 5).setKey 5 true)).map (·.pc) = some 0x202 := by decide
/-- K13. -/
theorem test_ldVxDT : (ran 0xF307 (State.reset.setDT 0x3C)).map (·.reg 3) = some 0x3C := by decide
/-- K6, its first step. -/
theorem test_ldVxK_waits : (ran 0xF50A State.reset).map (fun t => (t.pc, t.kwait, t.klatch)) = some (0x200, true, none) := by
  decide
/-- K6, its last step; K12. -/
theorem test_ldVxK_completes : (ran 0xF50A (State.reset.setWait true (some 7))).map
    (fun t => (t.reg 5, t.pc, t.kwait, t.klatch)) = some (7, 0x202, false, none) ∧
    failed 0xF50A ((from_ 0xFFE).setWait true (some 1)) = some .invalidOperand := by decide
/-- K14. -/
theorem test_ldDTVx : (ran 0xF215 (State.reset.setReg 2 0x3C)).map (·.DT) = some 0x3C := by decide
/-- K15. -/
theorem test_ldSTVx : (ran 0xF218 (State.reset.setReg 2 1)).map (fun t => (t.ST, soundActive t)) = some (1, true) := by
  decide
/-- K16, K17. -/
theorem test_tick : (tickTimers (State.reset.setDT 5)).DT = 4 ∧ (tickTimers State.reset).DT = 0 := by decide
/-- K7, K8, K18: a held key is no edge, the first edge stays, and outside a wait nothing is latched. -/
theorem test_setKey : (pressKey 7 true ((State.reset.setKey 7 true).setWait true none)).klatch = none ∧
    (pressKey 9 true (State.reset.setWait true (some 3))).klatch = some 3 ∧
    (pressKey 3 true State.reset).klatch = none := by decide

/-! ### Errors, reset and load (sections 9 and 10) -/

/-- ER1. -/
theorem test_fetch_edge : faultOf? (step (from_ 0xFFF)) = some .invalidOperand := by decide
/-- ER3, ER4: the order of errors. -/
theorem test_error_order : failed 0xFFFF (from_ 0xFFE) = some .unimplementedOpcode ∧
    failed 0x00EE (from_ 0xFFE) = some .stackUnderflow := by decide
/-- RL1, its memory bytes (the font's: log 3). -/
theorem test_reset_memory : [0x04F, 0x050, 0x054, 0x055, 0x09F, 0x0A0, 0x200].map State.reset.byteAt =
    [0, 0xF0, 0xF0, 0x20, 0x80, 0, 0] := by decide
/-- Reset memory is in canonical form. -/
theorem test_reset_memory_wf : State.reset.mem.wf = true := by decide
/-- The default configuration's reset is `State.reset`: its font is what unlisted addresses read as. -/
theorem test_reset_default : State.resetWith Config.default = State.reset := by decide +kernel
/-- RL6: three bytes, with no length alignment. -/
theorem test_load : (load [0x60, 0x05, 0x12] State.reset).toOption.map
    (fun t => [0x200, 0x201, 0x202, 0x203].map t.byteAt) = some [0x60, 0x05, 0x12, 0x00] := by decide +kernel
/-- RL3. -/
theorem test_load_too_large : (load (List.replicate 3585 0) State.reset).toOption = none := by
  rw [load, List.length_replicate]
  rfl
/-- The word placed for the host is the one fetched. -/
theorem test_withFetchWord : (fetch (State.reset.withFetchWord 16 0x8AB4)).toOption = some 0x8AB4 := by decide +kernel
/-- Writing what an unlisted address reads as removes the entry. -/
theorem test_memory_canonical : (Memory.write [] 0x300 7).write 0x300 0 = [] ∧
    (Memory.write [] 0x050 0xF0) = [] ∧ Memory.write (Memory.write [] 0x301 2) 0x300 1 = [(0x300, 1), (0x301, 2)] := by
  decide

/-! ### Witnesses: the statements' hypotheses are met -/

/-- The last address from which an instruction that advances completes, and the first from which it does not. -/
theorem witness_pc_room : (from_ 0xFFD).pc.toNat + 2 ≤ 0xFFF ∧ 0xFFF < (from_ 0xFFE).pc.toNat + 2 := by decide

/-- The same for a skip. -/
theorem witness_pc_room_skip : (from_ 0xFFB).pc.toNat + 4 ≤ 0xFFF ∧ 0xFFF < (from_ 0xFFC).pc.toNat + 4 := by decide

theorem witness_DecodesRow : (0x8AB4 : Word) &&& 0xF00F = 0x8004 ∧ (0xF765 : Word) &&& 0xF0FF = 0xF065 := by decide

theorem witness_DispatchAgreesWithOpcodeTable : ⟨.ADD_REG, 0x8004, 0xF00F⟩ ∈ opcodeRows ∧
    (0x8AB4 : Word) &&& 0xF00F = 0x8004 ∧ opcodeRows.all (fun r => !r.matches 0x8AB8) = true := by decide

theorem witness_EncodingTheDecodedGivesTheWord : decodeWord 0xDFF0 = some (.drw 15 15 0) := by decide

theorem witness_DecoderConsumesTwoBytesHighFirst :
    (decode [0x00, 0xE0, 0x12]).toOption = some (.cls, [0x12]) ∧ [(0x12 : Byte)].length < 2 ∧
      decodeWord ((0x00 : Byte) ++ (0xE1 : Byte)) = none := by decide

/-- At the last address a fetch can start from. -/
theorem witness_StepRunsTheDecodedInstruction :
    let s := placeWord 0x1234 (from_ 0xFFE)
    s.pc.toNat + 1 ≤ 0xFFF ∧ decodeWord (s.byteAt s.pc.toNat ++ s.byteAt (s.pc.toNat + 1)) = some (.jp 0x234) := by
  decide +kernel

theorem witness_FetchErrorsAndIllegalWords :
    (from_ 0xFFF).pc.toNat + 1 > 0xFFF ∧ (from_ 0xFFE).pc.toNat + 1 ≤ 0xFFF ∧
      decodeWord ((from_ 0xFFE).byteAt 0xFFE ++ (from_ 0xFFE).byteAt 0xFFF) = none := by decide

/-- Each side of each equivalence holds somewhere, and fails somewhere. -/
theorem witness_ErrorKindsAndTheirPriority :
    faultOf? (step State.reset) = some .unimplementedOpcode ∧
      failed 0x2400 (depth 16 State.reset) = some .stackOverflow ∧ failed 0x2400 (depth 15 State.reset) = none ∧
      failed 0x00EE State.reset = some .stackUnderflow ∧ failed 0x00EE (depth 1 State.reset) = none := by
  decide +kernel

theorem witness_FailingStepChangesNothing : step State.reset = .fault .unimplementedOpcode := rfl

theorem witness_KeyEventsAndErrors : State.reset.pc.toNat + 4 ≤ 0xFFF ∧
    faultOf? (step State.reset) = some .unimplementedOpcode := by decide

/-- A key skip at `0xFFC`: an error while the key is down, none once it is up (log 6). -/
theorem witness_KeyEventsAndErrors_edge :
    failed 0xE09E ((from_ 0xFFC).setKey 0 true) = some .invalidOperand ∧
      (nextState? (step (pressKey 0 false (placeWord 0xE09E ((from_ 0xFFC).setKey 0 true))))).map (·.pc) = some 0xFFE := by
  decide +kernel

theorem witness_ChangedMeansSomePixelDiffers : (ran 0xD005 (index 0x050)).isSome = true ∧
    (ran 0x00E0 State.reset).isSome = true := by decide +kernel

theorem witness_JumpToSelfIsAFixedPoint : runEnd? (placeWord 0x1200 State.reset) = some .jumpToSelf ∧
    (fetch (placeWord 0x1200 State.reset)).toOption = some 0x1200 ∧ decodeWord 0x1200 = some (.jp 0x200) := by
  decide +kernel

/-- Reset has the invariants, and a step from a state that has them completes. -/
theorem witness_Inv : State.reset.Inv where
  pcInRange := by decide
  depthBound := by decide
  entriesBound := nofun
  latchInWait := fun _ => rfl
  memCanonical := by decide

theorem witness_StepKeepsInvariants : (State.reset.setMem [(0x200, 0x60), (0x201, 0x05)]).Inv ∧
    (nextState? (step (State.reset.setMem [(0x200, 0x60), (0x201, 0x05)]))).map (·.pc) = some 0x202 :=
  ⟨⟨by decide, by decide, nofun, fun _ => rfl, by decide⟩, by decide⟩

theorem witness_EveryScheduleKeepsInvariants :
    (runSchedule [.load [0x60, 0x05], .step, .tickTimers, .setKey 5 true, .display, .reset]
      (construct Config.default)).isSome = true := by decide +kernel

/-- A waiting state that steps, and waits on. -/
theorem witness_WaitingMeansKeyWaitAtPc :
    let s := (State.reset.setMem [(0x200, 0xF5), (0x201, 0x0A)]).setWait true none
    s.WaitsAtKeyWait ∧ s.kwait = true ∧ step s = .next s :=
  ⟨fun _ => ⟨0xF50A, 5, rfl, by decide⟩, rfl, rfl⟩

/-- The frames: an instruction of each shape completes, with the frame's own premises. -/
theorem witness_frames_register :
    (∃ t, exec (.addReg 1 2) State.reset = .next t) ∧ (3 : Reg) ∉ regsWritten State.reset.cfg (.addReg 1 2) ∧
      (∀ a, ¬ storesTo (.addReg 1 2) State.reset a) := by
  refine ⟨⟨_, rfl⟩, by decide, fun a h => ?_⟩
  simp only [storesTo, bytesStored, Nat.add_zero] at h
  omega

theorem witness_frames_storing :
    (∃ t, exec (.ldMemVx 2) (index 0xFFD) = .next t) ∧ storesTo (.ldMemVx 2) (index 0xFFD) 0xFFF ∧
      ¬ storesTo (.ldMemVx 2) (index 0xFFD) 0xFFC :=
  ⟨⟨_, rfl⟩, by unfold storesTo; decide, by unfold storesTo; decide⟩

theorem witness_frames_index : (∃ t, exec (.drw 0 0 1) State.reset = .next t) ∧ (∀ nnn, Instr.drw 0 0 1 ≠ .ldI nnn) ∧
    (∀ x, Instr.drw 0 0 1 ≠ .addIVx x) ∧ (∀ x, Instr.drw 0 0 1 ≠ .ldFVx x) := ⟨⟨_, rfl⟩, nofun, nofun, nofun⟩

theorem witness_frames_stack : (∃ t, exec (.jp 0x300) State.reset = .next t) ∧ (∀ nnn, Instr.jp 0x300 ≠ .call nnn) ∧
    Instr.jp 0x300 ≠ .ret := ⟨⟨_, rfl⟩, nofun, nofun⟩

theorem witness_frames_timers : (∃ t, exec (.ldVxDT 0) State.reset = .next t) ∧ (∀ x, Instr.ldVxDT 0 ≠ .ldDTVx x) ∧
    (∀ x, Instr.ldVxDT 0 ≠ .ldSTVx x) := ⟨⟨_, rfl⟩, nofun, nofun⟩

theorem witness_frames_display : (∃ t, exec (.ldImm 0 1) State.reset = .next t) ∧ Instr.ldImm 0 1 ≠ .cls ∧
    (∀ x y n, Instr.ldImm 0 1 ≠ .drw x y n) := ⟨⟨_, rfl⟩, nofun, nofun⟩

theorem witness_frames_wait : (∃ t, exec (.skp 0) State.reset = .next t) ∧ (∀ x, Instr.skp 0 ≠ .ldVxK x) ∧
    (∀ x nn, Instr.skp 0 ≠ .rnd x nn) := ⟨⟨_, rfl⟩, nofun, nofun⟩

/-- A sprite that ends at `0xFFF`, one that runs past it, and the sprite of no rows above it. -/
theorem witness_DrawSprite :
    (∀ r < (2 : Nibble).toNat, (index 0xFFE).I.toNat + r ≤ 0xFFF) ∧
      (∃ r < (3 : Nibble).toNat, 0xFFF < (index 0xFFE).I.toNat + r) ∧
      (∀ r < (0 : Nibble).toNat, (index 0x1000).I.toNat + r ≤ 0xFFF) ∧ (index 0xFFE).pc.toNat + 2 ≤ 0xFFF ∧
      0xFFF < (from_ 0xFFE).pc.toNat + 2 := by
  refine ⟨by decide, ⟨2, by decide, by decide⟩, by decide, by decide, by decide⟩

theorem witness_DrawingTwiceRestoresTheDisplay : (0 : Reg) ≠ Reg.vf ∧ (0xE : Reg) ≠ Reg.vf ∧
    (∀ r < (15 : Nibble).toNat, (from_ 0xFFB).I.toNat + r ≤ 0xFFF) ∧ (from_ 0xFFB).pc.toNat + 4 ≤ 0xFFF ∧
    (∀ py px, Display.pixel (from_ 0xFFB).disp py px = false) := by
  refine ⟨by decide, by decide, by decide, by decide, ?_⟩
  intro py px
  exact Display.pixel_clear py px

theorem witness_ReturnFromSubroutine : (depth 1 State.reset).stack = (0x206 : Word) :: [] ∧
    (0x206 : Word).toNat ≤ 0xFFF ∧ (0xFFF : Word).toNat ≤ 0xFFF ∧ State.reset.stack = [] := by decide

theorem witness_CallSubroutine :
    (depth 15 (from_ 0xFFD)).stack.length < 16 ∧ (depth 15 (from_ 0xFFD)).pc.toNat + 2 ≤ 0xFFF ∧
      16 ≤ (depth 16 (from_ 0xFFE)).stack.length ∧ 0xFFF < (depth 15 (from_ 0xFFE)).pc.toNat + 2 := by decide

/-- Both configurations, at the target `0xFFF` and at `0x1000`. -/
theorem witness_JumpWithOffset :
    (State.reset.setReg 0 0xFF).cfg.jumpReg = .v0 ∧ (withCfg jumpVx (State.reset.setReg 0xF 0xFF)).cfg.jumpReg = .vx ∧
      (withCfg jumpVx (State.reset.setReg 0xF 0xFF)).reg (Fin.ofNat 16 ((0xF00 : Addr).toNat / 256)) = 0xFF ∧
      (State.reset.setReg 0 0xFF).reg 0 = 0xFF ∧ (0xF00 : Addr).toNat + (0xFF : Byte).toNat ≤ 0xFFF ∧
      0xFFF < (0xF01 : Addr).toNat + (0xFF : Byte).toNat := by decide

theorem witness_ReturnUndoesCall :
    (depth 15 (from_ 0xFFD)).stack.length < 16 ∧ (depth 15 (from_ 0xFFD)).pc.toNat + 2 ≤ 0xFFF := by decide

theorem witness_SkipOnImmediate : (from_ 0xFFB).reg 3 = 0 ∧ (from_ 0xFFB).reg 3 ≠ 1 ∧
    (from_ 0xFFB).pc.toNat + 4 ≤ 0xFFF ∧ 0xFFF < (from_ 0xFFC).pc.toNat + 4 ∧ (from_ 0xFFD).pc.toNat + 2 ≤ 0xFFF ∧
    0xFFF < (from_ 0xFFE).pc.toNat + 2 := by decide

theorem witness_SkipOnRegisters : (regs 1 7 2 7).reg 1 = (regs 1 7 2 7).reg 2 ∧
    (regs 1 7 2 8).reg 1 ≠ (regs 1 7 2 8).reg 2 ∧ (from_ 0xFFB).pc.toNat + 4 ≤ 0xFFF ∧
    0xFFF < (from_ 0xFFC).pc.toNat + 4 ∧ (from_ 0xFFD).pc.toNat + 2 ≤ 0xFFF ∧ 0xFFF < (from_ 0xFFE).pc.toNat + 2 := by
  decide

/-- The last key number, the first number that is none, and a key in each state. -/
theorem witness_SkipOnKey : ((State.reset.setReg 1 0xF).reg 1).toNat = (0xF : Key).val ∧
    0xF < ((State.reset.setReg 1 0x10).reg 1).toNat ∧ (State.reset.setKey 0xF true).keyDown 0xF = true ∧
    State.reset.keyDown 0xF = false ∧ (from_ 0xFFB).pc.toNat + 4 ≤ 0xFFF ∧ 0xFFF < (from_ 0xFFC).pc.toNat + 4 ∧
    (from_ 0xFFD).pc.toNat + 2 ≤ 0xFFF ∧ 0xFFF < (from_ 0xFFE).pc.toNat + 2 := by decide

/-- The plain arithmetic, logic and load statements, and those of the timers: their one premise is `pc` room. -/
theorem witness_LoadAndAddImmediate : (from_ 0xFFD).pc.toNat + 2 ≤ 0xFFF ∧ 0xFFF < (from_ 0xFFE).pc.toNat + 2 :=
  witness_pc_room
theorem witness_CopyAndLogic : (from_ 0xFFD).pc.toNat + 2 ≤ 0xFFF ∧ 0xFFF < (from_ 0xFFE).pc.toNat + 2 := witness_pc_room
theorem witness_AddRegisters : (from_ 0xFFD).pc.toNat + 2 ≤ 0xFFF ∧ 0xFFF < (from_ 0xFFE).pc.toNat + 2 := witness_pc_room
theorem witness_SubtractRegisters : (from_ 0xFFD).pc.toNat + 2 ≤ 0xFFF ∧ 0xFFF < (from_ 0xFFE).pc.toNat + 2 :=
  witness_pc_room
theorem witness_SubtractReversed : (from_ 0xFFD).pc.toNat + 2 ≤ 0xFFF ∧ 0xFFF < (from_ 0xFFE).pc.toNat + 2 :=
  witness_pc_room
theorem witness_RandomMasked : (from_ 0xFFD).pc.toNat + 2 ≤ 0xFFF ∧ 0xFFF < (from_ 0xFFE).pc.toNat + 2 := witness_pc_room
theorem witness_LoadIndex : (from_ 0xFFD).pc.toNat + 2 ≤ 0xFFF ∧ 0xFFF < (from_ 0xFFE).pc.toNat + 2 := witness_pc_room
theorem witness_ClearDisplay : (from_ 0xFFD).pc.toNat + 2 ≤ 0xFFF ∧ 0xFFF < (from_ 0xFFE).pc.toNat + 2 := witness_pc_room
theorem witness_ReadAndSetTimers : (from_ 0xFFD).pc.toNat + 2 ≤ 0xFFF ∧ 0xFFF < (from_ 0xFFE).pc.toNat + 2 :=
  witness_pc_room

theorem witness_Shifts : (from_ 0xFFD).pc.toNat + 2 ≤ 0xFFF ∧ (from_ 0xFFD).cfg.shiftSrc = .vy ∧
    (withCfg shiftInPlace (from_ 0xFFD)).cfg.shiftSrc = .vx ∧ 0xFFF < (from_ 0xFFE).pc.toNat + 2 := by decide

theorem witness_AddToIndex : (from_ 0xFFD).pc.toNat + 2 ≤ 0xFFF ∧ (from_ 0xFFD).cfg.fx1eVf = false ∧
    (withCfg indexFlag (from_ 0xFFD)).cfg.fx1eVf = true ∧ 0xFFF < (from_ 0xFFE).pc.toNat + 2 := by decide

theorem witness_StoreDecimalDigits : (index 0xFFD).mem.wf = true ∧ (index 0xFFD).I.toNat + 2 ≤ 0xFFF ∧
    (index 0xFFD).pc.toNat + 2 ≤ 0xFFF ∧ 0xFFF < (index 0xFFE).I.toNat + 2 := by decide

theorem witness_StoreRegisters : (index 0xFF0).mem.wf = true ∧ (index 0xFF0).I.toNat + (15 : Reg).val ≤ 0xFFF ∧
    (index 0xFF0).pc.toNat + 2 ≤ 0xFFF ∧ 0xFFF < (index 0xFF1).I.toNat + (15 : Reg).val := by decide

theorem witness_LoadRegisters : (index 0xFFF).I.toNat + (0 : Reg).val ≤ 0xFFF ∧ (index 0xFFF).pc.toNat + 2 ≤ 0xFFF ∧
    0xFFF < (index 0xFFF).I.toNat + (1 : Reg).val := by decide

theorem witness_LoadAfterStoreRestoresRegisters : (index 0xFF0).mem.wf = true ∧
    (index 0xFF0).I.toNat + (15 : Reg).val ≤ 0xFFF ∧ (index 0xFF0).pc.toNat + 4 ≤ 0xFFF := by decide

theorem witness_CheckedMemoryAccess : 0xFFF < 0x1000 ∧ State.reset.mem.wf = true ∧ 0xFFF ≤ 0xFFF := by decide

/-- Each case of the wait. -/
theorem witness_KeyWait : State.reset.kwait = false ∧ (State.reset.setWait true none).kwait = true ∧
    (State.reset.setWait true none).klatch = none ∧ ((from_ 0xFFD).setWait true (some 7)).klatch = some 7 ∧
    ((from_ 0xFFD).setWait true (some 7)).pc.toNat + 2 ≤ 0xFFF ∧
    0xFFF < ((from_ 0xFFE).setWait true (some 7)).pc.toNat + 2 := by decide

theorem witness_KeyWaitEndsAtTheFirstEdge :
    let s := placeWord 0xF50A (from_ 0xFFD)
    (fetch s).toOption = some 0xF50A ∧ decodeWord 0xF50A = some (.ldVxK 5) ∧ s.kwait = false ∧ s.pc.toNat + 2 ≤ 0xFFF ∧
      s.keyDown 7 = false := by decide +kernel

/-- The first and the last font address, and the addresses on either side. -/
theorem witness_ResetState : (fontBase ≤ 0x050 ∧ 0x050 < fontBase + fontSize) ∧
    (fontBase ≤ 0x09F ∧ 0x09F < fontBase + fontSize) ∧ ¬ (fontBase ≤ 0x04F ∧ 0x04F < fontBase + fontSize) ∧
    ¬ (fontBase ≤ 0x0A0 ∧ 0x0A0 < fontBase + fontSize) := by decide

theorem witness_LoadImage : State.reset.mem.wf = true ∧ (List.replicate 3584 (0 : Byte)).length ≤ 3584 ∧
    3585 ≤ (List.replicate 3585 (0 : Byte)).length := by
  simp only [List.length_replicate]
  decide

/-- The edge that latches, an event that does not, and the first index outside the interface. -/
theorem witness_SetKey :
    (State.reset.setWait true none).keyDown 7 = false ∧ (State.reset.setWait true none).kwait = true ∧
      (State.reset.setWait true none).klatch = none ∧ State.reset.kwait = false ∧ 16 ≤ 16 := by decide

theorem witness_ObservationsChangeNothing : 0 < (State.reset.setST 1).ST.toNat ∧ State.reset.ST.toNat = 0 := by decide

end Sys2Proof.Tests
end

section
/-! The statements of 10_state.md: the invariants of R28, what reset leaves (R29), and the frames of all instructions
(R16, R30). Each follows from what an instruction that completes can do (`exec_next`) and from what a transaction can do
(`transact_coreMove`). -/

namespace Sys2Proof.Machine

/-! ### What no instruction but its writers changes -/

/-- In going from `s` to `t` by instruction `i`, each field but `V` and `pc` is kept unless `i` is one of its writers
(R16, R30). -/
structure Frame (i : Instr) (s t : State) : Prop where
  mem   : (∀ x, i ≠ .ldBVx x) → (∀ x, i ≠ .ldMemVx x) → t.mem = s.mem
  I     : (∀ nnn, i ≠ .ldI nnn) → (∀ x, i ≠ .addIVx x) → (∀ x, i ≠ .ldFVx x) → t.I = s.I
  stack : (∀ nnn, i ≠ .call nnn) → i ≠ .ret → t.stack = s.stack
  DT    : (∀ x, i ≠ .ldDTVx x) → t.DT = s.DT
  ST    : (∀ x, i ≠ .ldSTVx x) → t.ST = s.ST
  disp  : i ≠ .cls → (∀ x y n, i ≠ .drw x y n) → t.disp = s.disp
  key   : t.key = s.key
  cfg   : t.cfg = s.cfg
  wait  : (∀ x, i ≠ .ldVxK x) → t.kwait = s.kwait ∧ t.klatch = s.klatch
  draws : (∀ x nn, i ≠ .rnd x nn) → t.draws = s.draws

/-- A new `pc` is outside every frame. -/
theorem Frame.setPc {i : Instr} {s u : State} (h : Frame i s u) (v : Word) : Frame i s (u.setPc v) :=
  ⟨h.mem, h.I, h.stack, h.DT, h.ST, h.disp, h.key, h.cfg, h.wait, h.draws⟩

theorem Effect.frame {i : Instr} {s u : State} (h : Effect i s u) : Frame i s u := by
  cases i
  case cls => subst h; constructor <;> simp
  case ret => obtain ⟨_, _, _, rfl⟩ := h; constructor <;> simp
  case call => obtain ⟨_, _, rfl⟩ := h; constructor <;> simp
  case jp | jpV0 | seImm | sneImm | seReg | sneReg | skp | sknp => subst h; constructor <;> simp
  case addIVx => obtain ⟨_, _, ⟨_, rfl⟩ | ⟨_, rfl⟩⟩ := h <;> constructor <;> simp
  case ldVxK => obtain ⟨_, _, rfl⟩ := h; constructor <;> simp
  case addReg | sub | subn | shr | shl | drw => obtain ⟨_, _, rfl⟩ := h; constructor <;> simp
  case ldBVx | ldMemVx => obtain ⟨_, _, _, rfl⟩ := h; constructor <;> simp
  case ldVxMem => obtain ⟨_, rfl, _⟩ := h; constructor <;> simp
  all_goals obtain ⟨_, rfl⟩ := h; constructor <;> simp

/-- The frame of every instruction that completes. -/
theorem exec_frame {i : Instr} {s t : State} (h : exec i s = .next t) : Frame i s t := by
  rcases exec_next h with ⟨x, rfl, ⟨-, rfl⟩ | ⟨-, -, rfl⟩⟩ | ⟨u, a, -, rfl, he⟩
  · constructor <;> simp
  · constructor <;> simp
  · exact he.frame.setPc _

/-! ### The invariants of R28 -/

/-- R28 (b) and (c): `2NNN` pushes only below depth 16 and only a return address in range; `00EE` takes one off. -/
theorem Effect.stack_bounded {i : Instr} {s u : State} (h : Effect i s u) (hs : s.Inv) :
    u.stack.length ≤ stackDepth ∧ ∀ t ∈ u.stack, t.toNat ≤ addrMax := by
  have hd := hs.depthBound
  have he := hs.entriesBound
  cases i
  case call =>
    obtain ⟨hlt, hret, rfl⟩ := h
    refine ⟨hlt, List.forall_mem_cons.2 ⟨?_, he⟩⟩
    rw [toNat_ofNat_of_le hret]
    exact hret
  case ret =>
    obtain ⟨top, rest, hst, rfl⟩ := h
    rw [hst] at hd he
    exact ⟨Nat.le_of_succ_le hd, (List.forall_mem_cons.1 he).2⟩
  all_goals
    rw [h.frame.stack nofun nofun]
    exact ⟨hd, he⟩

/-- R28 (e): an `FX0A` that completes clears the latch with the wait. -/
theorem Effect.latch_in_wait {i : Instr} {s u : State} (h : Effect i s u) (hs : s.Inv) :
    u.kwait = false → u.klatch = none := by
  cases i
  case ldVxK =>
    obtain ⟨-, b, rfl⟩ := h
    exact fun _ => rfl
  all_goals
    obtain ⟨hw, hl⟩ := h.frame.wait nofun
    rw [hw, hl]
    exact hs.latchInWait

/-- The stores write only addresses in range, so the canonical form stays. -/
theorem Effect.mem_wf {i : Instr} {s u : State} (h : Effect i s u) (hs : s.Inv) : u.mem.wf = true := by
  cases i
  case ldBVx | ldMemVx =>
    obtain ⟨bs, -, hr, rfl⟩ := h
    exact Memory.wf_writeList hr hs.memCanonical
  all_goals
    rw [h.frame.mem nofun nofun]
    exact hs.memCanonical

/-- The writes of an instruction, with any new `pc` in range, keep the invariants. -/
theorem Effect.inv {i : Instr} {s u : State} {a : Nat} (h : Effect i s u) (hs : s.Inv) (ha : a ≤ addrMax) :
    (u.setPc (BitVec.ofNat 16 a)).Inv where
  pcInRange := by rw [State.setPc_pc, toNat_ofNat_of_le ha]; exact ha
  depthBound := (h.stack_bounded hs).1
  entriesBound := (h.stack_bounded hs).2
  latchInWait := h.latch_in_wait hs
  memCanonical := h.mem_wf hs

/-- A wait that starts has no latch yet. -/
theorem State.Inv.startWait {s : State} (hs : s.Inv) : (s.setWait true none).Inv :=
  ⟨hs.pcInRange, hs.depthBound, hs.entriesBound, fun _ => rfl, hs.memCanonical⟩

theorem exec_inv {i : Instr} {s t : State} (hs : s.Inv) (h : exec i s = .next t) : t.Inv := by
  rcases exec_next h with ⟨x, rfl, ⟨-, rfl⟩ | ⟨-, -, rfl⟩⟩ | ⟨u, a, ha, rfl, he⟩
  · exact hs.startWait
  · exact hs
  · exact he.inv hs ha

theorem step_inv {s t : State} (hs : s.Inv) (h : step s = .next t) : t.Inv := by
  obtain ⟨op, i, -, -, he⟩ := step_next h
  exact exec_inv hs he

theorem step_cfg {s t : State} (h : step s = .next t) : t.cfg = s.cfg := by
  obtain ⟨op, i, -, -, he⟩ := step_next h
  exact (exec_frame he).cfg

theorem State.resetWith_inv (c : Config) : (State.resetWith c).Inv where
  pcInRange := by rw [State.resetWith_pc]; decide
  depthBound := Nat.zero_le _
  entriesBound := nofun
  latchInWait := fun _ => rfl
  memCanonical := Memory.wf_withFont c.font

theorem reset_inv (s : State) : (reset s).Inv :=
  have ⟨hpc, hdepth, hentries, hlatch, hmem⟩ := State.resetWith_inv s.cfg
  ⟨hpc, hdepth, hentries, hlatch, hmem⟩

/-- The whole of what a `load` that succeeds does (R131). -/
theorem load_ok {p : List Byte} {s t : State} (h : load p s = .ok t) :
    p.length ≤ maxImage ∧ t = s.setMem (s.mem.writeList progBase p) := by
  unfold load at h
  split at h
  · cases h
  · next hlen =>
    cases h
    exact ⟨Nat.le_of_not_lt hlen, rfl⟩

/-- An image that `load` accepts ends at `0xFFF` or below. -/
theorem load_inv {p : List Byte} {s t : State} (hs : s.Inv) (h : load p s = .ok t) : t.Inv := by
  obtain ⟨hlen, rfl⟩ := load_ok h
  have hend : progBase + p.length ≤ addrMax + 1 := by
    simp only [progBase, addrMax, maxImage] at *
    omega
  exact ⟨hs.pcInRange, hs.depthBound, hs.entriesBound, hs.latchInWait, Memory.wf_writeList hend hs.memCanonical⟩

theorem tickTimers_inv {s : State} (hs : s.Inv) : (tickTimers s).Inv :=
  ⟨hs.pcInRange, hs.depthBound, hs.entriesBound, hs.latchInWait, hs.memCanonical⟩

/-- A key event latches only inside a wait. -/
theorem pressKey_inv {k : Key} {p : Bool} {s : State} (hs : s.Inv) : (pressKey k p s).Inv where
  pcInRange := by rw [pressKey_pc]; exact hs.pcInRange
  depthBound := by rw [pressKey_stack]; exact hs.depthBound
  entriesBound := by rw [pressKey_stack]; exact hs.entriesBound
  latchInWait := by
    rw [pressKey_kwait]
    intro hw
    simp [pressKey_klatch, hw, hs.latchInWait hw]
  memCanonical := by rw [pressKey_mem]; exact hs.memCanonical

/-! ### What a transaction can do -/

/-- Everything a transaction can do to the core (R118): the observations, a failing step and a failing `load` leave it
as it was (R68, R120, R131). -/
inductive CoreMove (s : State) : State → Prop where
  | unchanged : CoreMove s s
  | reset : CoreMove s (reset s)
  | load {image : List Byte} {t : State} (h : load image s = .ok t) : CoreMove s t
  | step {t : State} (h : step s = .next t) : CoreMove s t
  | tick : CoreMove s (tickTimers s)
  | key (k : Key) (p : Bool) : CoreMove s (pressKey k p s)

theorem stepTransaction_coreMove {s t : State} {r : StepResult} (h : stepTransaction s = some (r, t)) :
    CoreMove s t := by
  unfold stepTransaction at h
  split at h
  · next hs => cases h; exact .step hs
  · cases h; exact .unchanged
  · cases h

theorem setKey_coreMove {k : Nat} {p : Bool} {s t : State} (h : setKey k p s = some t) : CoreMove s t := by
  unfold setKey at h
  split at h
  · cases h; exact .key _ p
  · cases h

theorem transact_coreMove {o : Transaction} {c d : Session} {r : Reply} (h : transact o c = some (r, d)) :
    CoreMove c.core d.core := by
  cases o <;> simp only [transact] at h
  case reset => cases h; exact .reset
  case load image =>
    split at h
    · split at h
      · next hl => cases h; exact .load hl
      · cases h; exact .unchanged
    · cases h
    · cases h
  case step =>
    split at h
    · cases h
    all_goals
      obtain ⟨⟨q, t⟩, ht, hd⟩ := Option.map_eq_some_iff.1 h
      cases hd
      exact stepTransaction_coreMove ht
  case tickTimers => cases h; exact .tick
  case setKey k p =>
    obtain ⟨t, ht, hd⟩ := Option.map_eq_some_iff.1 h
    cases hd
    exact setKey_coreMove ht
  case display | soundActive => cases h; exact .unchanged

theorem CoreMove.inv {s t : State} (h : CoreMove s t) (hs : s.Inv) : t.Inv := by
  cases h with
  | unchanged => exact hs
  | reset => exact reset_inv s
  | load h => exact load_inv hs h
  | step h => exact step_inv hs h
  | tick => exact tickTimers_inv hs
  | key k p => exact pressKey_inv hs

/-- Nothing writes the configuration (R26, R130). -/
theorem CoreMove.cfg_eq {s t : State} (h : CoreMove s t) : t.cfg = s.cfg := by
  cases h with
  | unchanged | reset | tick => rfl
  | load h => rw [(load_ok h).2, State.setMem_cfg]
  | step h => exact step_cfg h
  | key k p => exact pressKey_cfg k p s

theorem transact_inv {o : Transaction} {c d : Session} {r : Reply} (hc : c.core.Inv)
    (h : transact o c = some (r, d)) : d.core.Inv :=
  (transact_coreMove h).inv hc

/-- What every transaction keeps, every schedule keeps. -/
theorem runSchedule_keeps {P : Session → Prop}
    (hP : ∀ (o : Transaction) (c d : Session) (r : Reply), P c → transact o c = some (r, d) → P d)
    {os : List Transaction} {c d : Session} (hc : P c) (h : runSchedule os c = some d) : P d := by
  induction os generalizing c with
  | nil => cases h; exact hc
  | cons o os ih =>
    simp only [runSchedule] at h
    split at h
    · next r c' ho => exact ih (hP o c c' r hc ho) h
    · cases h

/-! ### Registers and memory -/

/-- R16's "V writes" column holds every register an instruction writes. -/
theorem Effect.reg_eq {i : Instr} {s u : State} {r : Reg} (h : Effect i s u) (hr : r ∉ regsWritten s.cfg i) :
    u.reg r = s.reg r := by
  cases i <;> simp only [regsWritten, List.mem_cons, List.not_mem_nil, or_false, not_or] at hr
  case cls => subst h; rfl
  case ret => obtain ⟨_, _, _, rfl⟩ := h; rfl
  case call => obtain ⟨_, _, rfl⟩ := h; rfl
  case jp | jpV0 | seImm | sneImm | seReg | sneReg | skp | sknp => subst h; rfl
  case ldI | ldFVx | ldDTVx | ldSTVx => obtain ⟨_, rfl⟩ := h; rfl
  case ldBVx | ldMemVx => obtain ⟨_, _, _, rfl⟩ := h; rfl
  case addIVx =>
    obtain ⟨_, _, ⟨_, rfl⟩ | ⟨hc, rfl⟩⟩ := h
    · rfl
    · exact State.reg_setVF_other _ _ _ (by simpa [hc] using hr)
  case ldVxK => obtain ⟨_, _, rfl⟩ := h; exact State.reg_setReg_other _ _ _ _ hr
  case rnd => obtain ⟨_, rfl⟩ := h; exact State.reg_setReg_other _ _ _ _ hr
  case addReg | sub | subn =>
    obtain ⟨_, _, rfl⟩ := h
    rw [State.reg_setVF_other _ _ _ hr.2, State.reg_setReg_other _ _ _ _ hr.1]
  case shr | shl =>
    obtain ⟨_, _, rfl⟩ := h
    rw [State.reg_setReg_other _ _ _ _ hr.1, State.reg_setVF_other _ _ _ hr.2]
  case drw => obtain ⟨_, _, rfl⟩ := h; exact State.reg_setVF_other _ _ _ hr
  case ldVxMem =>
    obtain ⟨V, rfl, hV⟩ := h
    exact hV r (by simpa using hr)
  all_goals obtain ⟨_, rfl⟩ := h; exact State.reg_setReg_other _ _ _ _ hr

/-- Memory changes only at the bytes an instruction stores. -/
theorem Effect.byteAt_eq {i : Instr} {s u : State} {a : Nat} (h : Effect i s u) (ha : ¬ storesTo i s a) :
    u.byteAt a = s.byteAt a := by
  cases i
  case ldBVx | ldMemVx =>
    obtain ⟨bs, hlen, -, rfl⟩ := h
    simp only [storesTo, bytesStored] at ha
    exact Memory.read_writeList_outside (by omega)
  all_goals exact congrArg (Memory.read · a) (h.frame.mem nofun nofun)

/-! ### What reset leaves -/

/-- Inside the font's range memory with a font reads as that font (R37). -/
theorem Memory.read_withFont_font (f : Font) {a : Nat} (h : fontBase ≤ a ∧ a < fontBase + fontSize) :
    (Memory.withFont f).read a = f.get ⟨a - fontBase, by omega⟩ := by
  obtain ⟨i, rfl⟩ := Nat.exists_eq_add_of_le h.1
  have hi : i < f.toList.length := by rw [Vector.length_toList]; omega
  rw [Memory.withFont, Memory.read_writeList_inside rfl (by rw [Vector.length_toList]; decide) hi]
  simp [Vector.get_eq_getElem]

/-- Outside the font's range memory with a font reads as zero (R36). -/
theorem Memory.read_withFont_outside (f : Font) {a : Nat} (h : ¬ (fontBase ≤ a ∧ a < fontBase + fontSize)) :
    (Memory.withFont f).read a = 0 := by
  rw [Memory.withFont, Memory.read_writeList_outside (by rw [Vector.length_toList]; omega)]
  exact if_neg h

/-- The default font is what the font's addresses read as unlisted, so copying it in lists nothing. -/
theorem Memory.withFont_default : Memory.withFont Config.defaultFont = [] := by decide

theorem State.reset_eq_resetWith : State.reset = State.resetWith Config.default := by
  rw [State.resetWith, show Config.default.font = Config.defaultFont from rfl, Memory.withFont_default]
  rfl

/-! ### The statements -/

/-- Settles O18, from what an instruction that completes can do. -/
theorem stepKeepsInvariants : Obligations.StepKeepsInvariants :=
  fun _ _ => step_inv

/-- Settles O19, by induction on the schedule. -/
theorem everyScheduleKeepsInvariants : Obligations.EveryScheduleKeepsInvariants := by
  refine ⟨fun _ _ _ _ => transact_inv, fun os cfg d h => ⟨?_, ?_⟩⟩
  · exact runSchedule_keeps (P := fun c => c.core.Inv) (fun _ _ _ _ => transact_inv) (State.resetWith_inv cfg) h
  · exact runSchedule_keeps (P := fun c => c.core.cfg = cfg) (fun _ _ _ _ hc ho => (transact_coreMove ho).cfg_eq.trans hc) rfl h

/-- Settles O21: `V` changes only in the writes of an instruction that completes. -/
theorem onlyTheNamedRegistersChange : Obligations.OnlyTheNamedRegistersChange := by
  intro i s t h r hr
  rcases exec_next h with ⟨x, rfl, ⟨-, rfl⟩ | ⟨-, -, rfl⟩⟩ | ⟨u, a, -, rfl, he⟩
  · rfl
  · rfl
  · exact he.reg_eq hr

/-- Settles O22: a store's bytes are the whole of what it writes. -/
theorem onlyTheStoredBytesChange : Obligations.OnlyTheStoredBytesChange := by
  intro i s t h a ha
  rcases exec_next h with ⟨x, rfl, ⟨-, rfl⟩ | ⟨-, -, rfl⟩⟩ | ⟨u, _, -, rfl, he⟩
  · rfl
  · rfl
  · exact he.byteAt_eq ha

/-- Settles O23, from the frame of every instruction. -/
theorem onlyThreeInstructionsWriteIndex : Obligations.OnlyThreeInstructionsWriteIndex :=
  fun _ _ _ h => (exec_frame h).I

/-- Settles O24, from the frame of every instruction. -/
theorem onlyCallAndReturnTouchTheStack : Obligations.OnlyCallAndReturnTouchTheStack :=
  fun _ _ _ h => (exec_frame h).stack

/-- Settles O25, from the frame of every instruction. -/
theorem onlyTwoInstructionsWriteTheTimers : Obligations.OnlyTwoInstructionsWriteTheTimers :=
  fun _ _ _ h => ⟨(exec_frame h).DT, (exec_frame h).ST⟩

/-- Settles O27, from the frame of every instruction. -/
theorem keysConfigurationAndWaitStateAreKept : Obligations.KeysConfigurationAndWaitStateAreKept :=
  fun _ _ _ h => ⟨(exec_frame h).key, (exec_frame h).cfg, (exec_frame h).wait, (exec_frame h).draws⟩

/-- Settles O17: an empty stack, no wait, and memory a font written over nothing. -/
theorem resetEstablishesInvariants : Obligations.ResetEstablishesInvariants :=
  ⟨State.resetWith_inv, State.reset_eq_resetWith ▸ State.resetWith_inv Config.default, reset_inv⟩

/-- Settles O56: memory is a font written over nothing, and every other field is a constant. -/
theorem resetState : Obligations.ResetState := by
  refine ⟨fun s => ⟨fun a ha => Memory.read_withFont_font s.cfg.font ha,
    fun a ha => Memory.read_withFont_outside s.cfg.font ha, fun r => ?_, rfl, rfl, rfl, rfl, rfl,
    Display.pixel_clear, fun k => ?_, rfl, rfl, rfl⟩, State.reset_eq_resetWith⟩
  · simp [reset, State.reg, Vector.get_eq_getElem]
  · simp [reset, State.keyDown, Vector.get_eq_getElem]

end Sys2Proof.Machine
end

section
/-! The statements of 20_memory.md: the checks and the effect of the checked accesses (R35, R44). -/

namespace Sys2Proof.Machine

/-- Settles O52: the range check decides each access, and one in range is an unchecked read or write of canonical
memory. -/
theorem checkedMemoryAccess : Obligations.CheckedMemoryAccess := by
  refine ⟨fun _ _ _ ha => ⟨memRead_error ha, memWrite_error ha⟩, fun s a v hwf ha => ?_⟩
  refine ⟨s.setMem (s.mem.write a v), memWrite_ok ha, Memory.wf_write ha hwf, ?_, fun b hb => ?_, rfl⟩
  · rw [memRead_ok ha, State.byteAt_setMem, Memory.read_write_same hwf]
  · rw [memRead, memRead, State.byteAt_setMem, Memory.read_write_other hb, State.byteAt]

end Sys2Proof.Machine
end

section
/-! The statements of 30_encoding.md. `Kind.Selects` says of every kind which fields select it, the dispatch is proved
to select by exactly those once (`classifyFields_eq_iff`), and a word matches a row of R57's table exactly when
its fields select the row's kind (`row_matches_iff_selects`); the statements about words follow. -/

namespace Sys2Proof

/-! ### Fields and words (R50, R53) -/

theorem eq_wordA12_iff {op : Word} {a : Nibble} {nnn : Addr} :
    op = wordA12 a nnn ↔ (fields op).nib1 = a ∧ (fields op).nnn = nnn := by
  constructor
  · rintro rfl
    simp [fields_wordA12]
  · rintro ⟨rfl, rfl⟩
    exact (word_eq_nib_nnn op).symm

theorem eq_wordXNN_iff {op : Word} {a : Nibble} {x : Reg} {nn : Byte} :
    op = wordXNN a x nn ↔ (fields op).nib1 = a ∧ (fields op).regX = x ∧ (fields op).nn = nn := by
  constructor
  · rintro rfl
    simp [fields_wordXNN, Fields.regX]
  · rintro ⟨rfl, rfl, rfl⟩
    exact (word_eq_nib_x_nn op).symm

theorem eq_wordX_iff {op : Word} {a : Nibble} {x : Reg} {function : Byte} :
    op = wordX a x function ↔ (fields op).nib1 = a ∧ (fields op).regX = x ∧ (fields op).nn = function :=
  eq_wordXNN_iff

theorem eq_wordXYN_iff {op : Word} {a : Nibble} {x y : Reg} {n : Nibble} :
    op = wordXYN a x y n ↔
      (fields op).nib1 = a ∧ (fields op).regX = x ∧ (fields op).regY = y ∧ (fields op).n = n := by
  constructor
  · rintro rfl
    simp [fields_wordXYN, Fields.regX, Fields.regY]
  · rintro ⟨rfl, rfl, rfl, rfl⟩
    exact (word_eq_nibbles op).symm

/-! ### What the dispatch selects (R55, R56) -/

/-- The fields of the words of a kind: the leading nibble, and what the second level of the dispatch looks at. Those of
`UNIMPL` are the six spaces of R58. -/
def Kind.Selects (f : Fields) : Kind → Prop
  | .CLS => f.nib1 = 0x0 ∧ f.nnn = 0x0E0
  | .RET => f.nib1 = 0x0 ∧ f.nnn = 0x0EE
  | .JP => f.nib1 = 0x1
  | .CALL => f.nib1 = 0x2
  | .SE_IMM => f.nib1 = 0x3
  | .SNE_IMM => f.nib1 = 0x4
  | .SE_REG => f.nib1 = 0x5 ∧ f.n = 0x0
  | .LD_IMM => f.nib1 = 0x6
  | .ADD_IMM => f.nib1 = 0x7
  | .LD_REG => f.nib1 = 0x8 ∧ f.n = 0x0
  | .OR => f.nib1 = 0x8 ∧ f.n = 0x1
  | .AND => f.nib1 = 0x8 ∧ f.n = 0x2
  | .XOR => f.nib1 = 0x8 ∧ f.n = 0x3
  | .ADD_REG => f.nib1 = 0x8 ∧ f.n = 0x4
  | .SUB => f.nib1 = 0x8 ∧ f.n = 0x5
  | .SHR => f.nib1 = 0x8 ∧ f.n = 0x6
  | .SUBN => f.nib1 = 0x8 ∧ f.n = 0x7
  | .SHL => f.nib1 = 0x8 ∧ f.n = 0xE
  | .SNE_REG => f.nib1 = 0x9 ∧ f.n = 0x0
  | .LD_I => f.nib1 = 0xA
  | .JP_V0 => f.nib1 = 0xB
  | .RND => f.nib1 = 0xC
  | .DRW => f.nib1 = 0xD
  | .SKP => f.nib1 = 0xE ∧ f.nn = 0x9E
  | .SKNP => f.nib1 = 0xE ∧ f.nn = 0xA1
  | .LD_VX_DT => f.nib1 = 0xF ∧ f.nn = 0x07
  | .LD_VX_K => f.nib1 = 0xF ∧ f.nn = 0x0A
  | .LD_DT_VX => f.nib1 = 0xF ∧ f.nn = 0x15
  | .LD_ST_VX => f.nib1 = 0xF ∧ f.nn = 0x18
  | .ADD_I_VX => f.nib1 = 0xF ∧ f.nn = 0x1E
  | .LD_F_VX => f.nib1 = 0xF ∧ f.nn = 0x29
  | .LD_B_VX => f.nib1 = 0xF ∧ f.nn = 0x33
  | .LD_MEM_VX => f.nib1 = 0xF ∧ f.nn = 0x55
  | .LD_VX_MEM => f.nib1 = 0xF ∧ f.nn = 0x65
  | .UNIMPL =>
    (f.nib1 = 0x0 ∧ f.nnn ≠ 0x0E0 ∧ f.nnn ≠ 0x0EE) ∨
    (f.nib1 = 0x5 ∧ f.n ≠ 0) ∨
    (f.nib1 = 0x8 ∧ f.n ∈ [0x8, 0x9, 0xA, 0xB, 0xC, 0xD, 0xF]) ∨
    (f.nib1 = 0x9 ∧ f.n ≠ 0) ∨
    (f.nib1 = 0xE ∧ f.nn ∉ [0x9E, 0xA1]) ∨
    (f.nib1 = 0xF ∧ f.nn ∉ [0x07, 0x0A, 0x15, 0x18, 0x1E, 0x29, 0x33, 0x55, 0x65])

/-- The functions of the `8XYn` family that R57 leaves out (R58). -/
theorem classify8_eq_unimpl_iff : ∀ n : Nibble,
    classify8 n = .UNIMPL ↔ n ∈ [0x8, 0x9, 0xA, 0xB, 0xC, 0xD, 0xF] := by decide

/-- The fields are among those that select the dispatch's answer: one case per arm of R55, the second level of R56 within
it, and no arm for a nibble above 15. -/
theorem selects_classifyFields (f : Fields) : (classifyFields f).Selects f := by
  obtain ⟨nib1, x, y, n, nn, nnn⟩ := f
  unfold classifyFields
  split
  case h_1 h =>
    obtain rfl : nib1 = 0x0 := BitVec.eq_of_toNat_eq h
    unfold classify0
    split_ifs <;> simp_all [Kind.Selects]
  case h_6 h =>
    obtain rfl : nib1 = 0x5 := BitVec.eq_of_toNat_eq h
    split_ifs <;> simp_all [Kind.Selects]
  case h_9 h =>
    obtain rfl : nib1 = 0x8 := BitVec.eq_of_toNat_eq h
    obtain ⟨n⟩ := n
    fin_cases n <;> simp [Kind.Selects, classify8]
  case h_10 h =>
    obtain rfl : nib1 = 0x9 := BitVec.eq_of_toNat_eq h
    split_ifs <;> simp_all [Kind.Selects]
  case h_15 h =>
    obtain rfl : nib1 = 0xE := BitVec.eq_of_toNat_eq h
    unfold classifyE
    split_ifs <;> simp_all [Kind.Selects]
  case h_16 h =>
    obtain rfl : nib1 = 0xF := BitVec.eq_of_toNat_eq h
    unfold classifyF
    split_ifs <;> simp_all [Kind.Selects]
  case h_17 =>
    have hlt : nib1.toNat < 16 := nib1.isLt
    grind
  all_goals exact BitVec.eq_of_toNat_eq ‹_›

theorem classifyFields_of_selects {f : Fields} {k : Kind} (h : k.Selects f) : classifyFields f = k := by
  obtain ⟨nib1, x, y, n, nn, nnn⟩ := f
  cases k
  case UNIMPL =>
    rcases h with ⟨rfl, h1, h2⟩ | ⟨rfl, h⟩ | ⟨rfl, h⟩ | ⟨rfl, h⟩ | ⟨rfl, h⟩ | ⟨rfl, h⟩
    · simp_all [classifyFields, classify0]
    · simp_all [classifyFields]
    · exact (classify8_eq_unimpl_iff n).2 h
    · simp_all [classifyFields]
    · simp_all [classifyFields, classifyE]
    · simp_all [classifyFields, classifyF]
  case JP | CALL | SE_IMM | SNE_IMM | LD_IMM | ADD_IMM | LD_I | JP_V0 | RND | DRW =>
    obtain rfl := h
    rfl
  all_goals
    obtain ⟨rfl, rfl⟩ := h
    rfl

/-- A kind is the dispatch's answer exactly for the fields that select it. -/
theorem classifyFields_eq_iff {f : Fields} {k : Kind} : classifyFields f = k ↔ k.Selects f :=
  ⟨fun h => h ▸ selects_classifyFields f, classifyFields_of_selects⟩

/-! ### What R57's rows select -/

/-- Masking a word masks every field, so a mask is read field by field. -/
theorem fields_and (op m : Word) :
    fields (op &&& m) =
      ⟨(fields op).nib1 &&& (fields m).nib1, (fields op).x &&& (fields m).x, (fields op).y &&& (fields m).y,
        (fields op).n &&& (fields m).n, (fields op).nn &&& (fields m).nn, (fields op).nnn &&& (fields m).nnn⟩ := by
  simp only [fields, BitVec.extractLsb'_and]

theorem nibble_and_ones (n : Nibble) : n &&& 0xF#4 = n := BitVec.and_allOnes

theorem byte_and_ones (b : Byte) : b &&& 0xFF#8 = b := BitVec.and_allOnes

theorem masked_F000_iff {op p : Word} {a : Nibble} (hp : p = wordA12 a 0) :
    op &&& 0xF000 = p ↔ (fields op).nib1 = a := by
  have hm : fields 0xF000#16 = ⟨0xF, 0, 0, 0, 0, 0⟩ := rfl
  simp [hp, eq_wordA12_iff, fields_and, hm, nibble_and_ones]

theorem masked_F00F_iff {op p : Word} {a n : Nibble} (hp : p = wordXYN a 0 0 n) :
    op &&& 0xF00F = p ↔ (fields op).nib1 = a ∧ (fields op).n = n := by
  have hm : fields 0xF00F#16 = ⟨0xF, 0, 0, 0xF, 0x0F, 0x00F⟩ := rfl
  simp [hp, eq_wordXYN_iff, fields_and, hm, nibble_and_ones, Fields.regX, Fields.regY]

theorem masked_F0FF_iff {op p : Word} {a : Nibble} {function : Byte} (hp : p = wordX a 0 function) :
    op &&& 0xF0FF = p ↔ (fields op).nib1 = a ∧ (fields op).nn = function := by
  have hm : fields 0xF0FF#16 = ⟨0xF, 0, 0xF, 0xF, 0xFF, 0x0FF⟩ := rfl
  simp [hp, eq_wordX_iff, fields_and, hm, nibble_and_ones, byte_and_ones, Fields.regX]

theorem masked_FFFF_iff {op p : Word} {a : Nibble} {nnn : Addr} (hp : p = wordA12 a nnn) :
    op &&& 0xFFFF = p ↔ (fields op).nib1 = a ∧ (fields op).nnn = nnn := by
  rw [hp, ← eq_wordA12_iff, show (0xFFFF : Word) = BitVec.allOnes 16 from rfl, BitVec.and_allOnes]

/-- A word matches a row of R57 exactly when its fields select the row's kind. -/
theorem row_matches_iff_selects (op : Word) :
    ∀ r ∈ opcodeRows, op &&& r.mask = r.pattern ↔ r.kind.Selects (fields op) := by
  simp only [opcodeRows, rowsPlain, rowsAlu, rowsHigh, List.cons_append, List.nil_append, List.forall_mem_cons]
  exact ⟨masked_FFFF_iff rfl, masked_FFFF_iff rfl, masked_F000_iff rfl, masked_F000_iff rfl, masked_F000_iff rfl,
    masked_F000_iff rfl, masked_F00F_iff rfl, masked_F000_iff rfl, masked_F000_iff rfl, masked_F00F_iff rfl,
    masked_F00F_iff rfl, masked_F00F_iff rfl, masked_F00F_iff rfl, masked_F00F_iff rfl, masked_F00F_iff rfl,
    masked_F00F_iff rfl, masked_F00F_iff rfl, masked_F00F_iff rfl, masked_F00F_iff rfl, masked_F000_iff rfl,
    masked_F000_iff rfl, masked_F000_iff rfl, masked_F000_iff rfl, masked_F0FF_iff rfl, masked_F0FF_iff rfl,
    masked_F0FF_iff rfl, masked_F0FF_iff rfl, masked_F0FF_iff rfl, masked_F0FF_iff rfl, masked_F0FF_iff rfl,
    masked_F0FF_iff rfl, masked_F0FF_iff rfl, masked_F0FF_iff rfl, masked_F0FF_iff rfl, nofun⟩

theorem row_matches_iff_classify {op : Word} {r : Row} (hr : r ∈ opcodeRows) :
    op &&& r.mask = r.pattern ↔ classify op = r.kind :=
  (row_matches_iff_selects op r hr).trans classifyFields_eq_iff.symm

theorem row_eq_of_kind_eq {r q : Row} (hr : r ∈ opcodeRows) (hq : q ∈ opcodeRows) (h : r.kind = q.kind) : r = q :=
  List.inj_on_of_nodup_map (f := Row.kind) (by decide) hr hq h

/-- Every kind but `UNIMPL` has a row in R57's table. -/
theorem exists_row_of_kind {k : Kind} (hk : k ≠ .UNIMPL) : ∃ r ∈ opcodeRows, r.kind = k := by
  cases k
  case UNIMPL => exact absurd rfl hk
  all_goals decide

theorem classify_eq_unimpl {op : Word} (h : ∀ r ∈ opcodeRows, op &&& r.mask ≠ r.pattern) : classify op = .UNIMPL := by
  by_contra hk
  obtain ⟨r, hr, hrk⟩ := exists_row_of_kind hk
  exact h r hr ((row_matches_iff_classify hr).2 hrk.symm)

theorem classify_eq_tableKind (op : Word) : classify op = tableKind op := by
  unfold tableKind
  cases hf : opcodeRows.find? (·.matches op) with
  | some r =>
    have hm : r.matches op = true := List.find?_some (p := fun q : Row => q.matches op) hf
    exact (row_matches_iff_classify (List.mem_of_find?_eq_some hf)).1 (of_decide_eq_true hm)
  | none =>
    exact classify_eq_unimpl fun r hr h => List.find?_eq_none.1 hf r hr (decide_eq_true h)

/-! ### Instructions and words -/

theorem decodeWord_eq (op : Word) :
    decodeWord op = (classify op).build (fields op).regX (fields op).regY (fields op).n (fields op).nn (fields op).nnn :=
  rfl

theorem decodeWord_of_fields {op : Word} {f : Fields} {i : Instr} (hf : fields op = f)
    (hb : (classifyFields f).build f.regX f.regY f.n f.nn f.nnn = some i) : decodeWord op = some i := by
  subst hf
  exact hb

theorem decodeWord_encode (i : Instr) : decodeWord (encode i) = some i := by
  cases i
  case cls | ret => rfl
  case jp | call | ldI | jpV0 => exact decodeWord_of_fields (fields_wordA12 _ _) rfl
  case seImm | sneImm | ldImm | addImm | rnd => exact decodeWord_of_fields (fields_wordXNN _ _ _) rfl
  case skp | sknp | ldVxDT | ldVxK | ldDTVx | ldSTVx | addIVx | ldFVx | ldBVx | ldMemVx | ldVxMem =>
    exact decodeWord_of_fields (fields_wordX _ _ _) rfl
  all_goals exact decodeWord_of_fields (fields_wordXYN _ _ _ _) rfl

/-- Where the fields of a word select a kind, the word is that of the instruction the kind makes of them. -/
theorem encode_build {op : Word} {k : Kind} {i : Instr} (hk : k.Selects (fields op))
    (hi : k.build (fields op).regX (fields op).regY (fields op).n (fields op).nn (fields op).nnn = some i) :
    op = encode i := by
  cases k <;> cases hi
  case CLS | RET => exact eq_wordA12_iff.2 hk
  case JP | CALL | LD_I | JP_V0 => exact eq_wordA12_iff.2 ⟨hk, rfl⟩
  case SE_IMM | SNE_IMM | LD_IMM | ADD_IMM | RND => exact eq_wordXNN_iff.2 ⟨hk, rfl, rfl⟩
  case DRW => exact eq_wordXYN_iff.2 ⟨hk, rfl, rfl, rfl⟩
  case SKP | SKNP | LD_VX_DT | LD_VX_K | LD_DT_VX | LD_ST_VX | ADD_I_VX | LD_F_VX | LD_B_VX | LD_MEM_VX | LD_VX_MEM =>
    exact eq_wordX_iff.2 ⟨hk.1, rfl, hk.2⟩
  all_goals exact eq_wordXYN_iff.2 ⟨hk.1, rfl, rfl, hk.2⟩

theorem build_eq_none_iff {k : Kind} {x y : Reg} {n : Nibble} {nn : Byte} {nnn : Addr} :
    k.build x y n nn nnn = none ↔ k = .UNIMPL := by
  cases k <;> simp [Kind.build]

theorem decodeWord_eq_none_iff {op : Word} : decodeWord op = none ↔ Kind.UNIMPL.Selects (fields op) := by
  rw [decodeWord_eq, build_eq_none_iff]
  exact classifyFields_eq_iff

theorem eq_word_iff_nnn {op : Word} {nnn : Addr} (h : (fields op).nib1 = 0) :
    op = wordA12 0 nnn ↔ (fields op).nnn = nnn :=
  eq_wordA12_iff.trans (and_iff_right h)

/-! ### Bytes (R39, R52) -/

theorem decode_of_some {hi lo : Byte} {i : Instr} (h : decodeWord (hi ++ lo) = some i) (rest : List Byte) :
    decode (hi :: lo :: rest) = .ok (i, rest) := by
  rw [decode, h]

theorem decode_of_none {hi lo : Byte} (h : decodeWord (hi ++ lo) = none) (rest : List Byte) :
    decode (hi :: lo :: rest) = .error (.unimpl (hi ++ lo)) := by
  rw [decode, h]

theorem decode_encodeBytes (i : Instr) (rest : List Byte) : decode (encodeBytes i ++ rest) = .ok (i, rest) := by
  obtain ⟨hi, lo, hb, hw⟩ := wordBytes_append (encode i)
  rw [encodeBytes, hb]
  exact decode_of_some (hw ▸ decodeWord_encode i) rest

theorem decode_eq_ok {hi lo : Byte} {rest rest' : List Byte} {i : Instr}
    (h : decode (hi :: lo :: rest) = .ok (i, rest')) : rest' = rest ∧ decodeWord (hi ++ lo) = some i := by
  cases hd : decodeWord (hi ++ lo) with
  | none => rw [decode_of_none hd] at h; cases h
  | some j => rw [decode_of_some hd] at h; cases h; exact ⟨rfl, rfl⟩

theorem decode_short {bs : List Byte} (h : bs.length < 2) : decode bs = .error .truncated := by
  match bs with
  | [] => rfl
  | [_] => rfl
  | _ :: _ :: _ => simp at h

/-! ### Assembly (R60) -/

/-- An instruction's line, with the widths of its numbers forgotten, is its operands as plain numbers. -/
theorem raw?_asm (i : Instr) : i.asm.mnemonic.raw? (i.asm.operands.map AsmOperand.raw) = some i.raw := by
  cases i <;> rfl

theorem rawOperands (i : Instr) : Laws.RawOperands.Statement i := by
  cases i
  exacts [Laws.RawOperands.cls, Laws.RawOperands.ret, Laws.RawOperands.jp _, Laws.RawOperands.call _,
    Laws.RawOperands.seImm _ _, Laws.RawOperands.sneImm _ _, Laws.RawOperands.seReg _ _, Laws.RawOperands.ldImm _ _,
    Laws.RawOperands.addImm _ _, Laws.RawOperands.ldReg _ _, Laws.RawOperands.orReg _ _, Laws.RawOperands.andReg _ _,
    Laws.RawOperands.xorReg _ _, Laws.RawOperands.addReg _ _, Laws.RawOperands.sub _ _, Laws.RawOperands.shr _ _,
    Laws.RawOperands.subn _ _, Laws.RawOperands.shl _ _, Laws.RawOperands.sneReg _ _, Laws.RawOperands.ldI _,
    Laws.RawOperands.jpV0 _, Laws.RawOperands.rnd _ _, Laws.RawOperands.drw _ _ _, Laws.RawOperands.skp _,
    Laws.RawOperands.sknp _, Laws.RawOperands.ldVxDT _, Laws.RawOperands.ldVxK _, Laws.RawOperands.ldDTVx _,
    Laws.RawOperands.ldSTVx _, Laws.RawOperands.addIVx _, Laws.RawOperands.ldFVx _, Laws.RawOperands.ldBVx _,
    Laws.RawOperands.ldMemVx _, Laws.RawOperands.ldVxMem _]

/-! ### The statements -/

/-- Settles O4: the fields of a word built from fields are those fields, and the dispatch on them is a computation. -/
theorem decodingTheEncodingGivesTheInstruction : Obligations.DecodingTheEncodingGivesTheInstruction :=
  decodeWord_encode

/-- Settles O5: the fields that select a kind fix every bit that is no operand of its instruction. -/
theorem encodingTheDecodedGivesTheWord : Obligations.EncodingTheDecodedGivesTheWord :=
  fun op _ h => (encode_build (selects_classifyFields (fields op)) h).symm

/-- Settles O2: a row is matched exactly by the words of its kind, and each legal kind has one row. -/
theorem dispatchAgreesWithOpcodeTable : Obligations.DispatchAgreesWithOpcodeTable :=
  ⟨rfl, fun _ _ hr h => (row_matches_iff_classify hr).1 h,
    fun _ _ hr _ hq h h' => row_eq_of_kind_eq hr hq
      (((row_matches_iff_classify hr).1 h).symm.trans ((row_matches_iff_classify hq).1 h')),
    fun _ => classify_eq_unimpl, classify_eq_tableKind⟩

/-- Settles O3: only `UNIMPL` makes no instruction, and under `nib1 = 0` the field `nnn` is the whole word. -/
theorem illegalWordsAreTheSixSpaces : Obligations.IllegalWordsAreTheSixSpaces := by
  intro op
  rw [decodeWord_eq_none_iff]
  refine or_congr_left (and_congr_right fun h => ?_)
  exact and_congr (not_congr (eq_word_iff_nnn h).symm) (not_congr (eq_word_iff_nnn h).symm)

/-- Settles O6: a word's two bytes, high byte first, join to the word, and the decoder on bytes is that on the word. -/
theorem decoderConsumesTwoBytesHighFirst : Obligations.DecoderConsumesTwoBytesHighFirst :=
  ⟨decode_encodeBytes, fun _ _ _ _ _ => decode_eq_ok, fun _ => decode_short, fun _ _ rest h => decode_of_none h rest⟩

/-- Settles O8: the text reads back as the instruction's operands, which are within its fields. -/
theorem assemblingTheTextGivesTheInstruction : Obligations.AssemblingTheTextGivesTheInstruction := by
  intro i
  rw [assemble, readLine_text, raw?_asm]
  exact (rawOperands i).2

/-- Settles O1: a bit extraction is a shift and a remainder, and a word is joined from its nibbles. -/
theorem fieldsAreTheBitsOfTheWord : Obligations.FieldsAreTheBitsOfTheWord := by
  intro op
  have hop := op.isLt
  have hw : op = wordXYN (fields op).nib1 (fields op).regX (fields op).regY (fields op).n :=
    eq_wordXYN_iff.2 ⟨rfl, rfl, rfl, rfl⟩
  have h := (congrArg fields hw).trans (fields_wordXYN _ _ _ _)
  refine ⟨?_, ?_, ?_, ?_, ?_, ?_, congrArg Fields.nn h, congrArg Fields.nnn h⟩ <;>
    simp only [fields, BitVec.extractLsb'_toNat, Nat.shiftRight_eq_div_pow] <;> omega

/-- Settles O7: each word is decoded by computation. -/
theorem wordsOfTheSpecDecode : Obligations.WordsOfTheSpecDecode := by
  unfold Obligations.WordsOfTheSpecDecode
  decide

end Sys2Proof
end

section
/-! The statements of 40_cycle.md: the fetch and its errors (R61-R64), a failing step (R68), and `changed` with the
writers of the display (R70). -/

namespace Sys2Proof.Machine

/-! ### Fetch (R62) -/

/-- Both bytes in range: the fetch joins them, high byte first. -/
theorem fetch_ok {s : State} (h : s.pc.toNat + 1 ≤ addrMax) :
    fetch s = .ok (s.byteAt s.pc.toNat ++ s.byteAt (s.pc.toNat + 1)) := by
  rw [fetch_eq, if_pos h]

theorem fetch_error {s : State} (h : addrMax < s.pc.toNat + 1) : fetch s = .error .invalidOperand := by
  rw [fetch_eq, if_neg (by omega)]

/-! ### The transaction of a step (R68, R70) -/

theorem stepTransaction_of_next {s t : State} (h : step s = .next t) :
    stepTransaction s = some (.ok (displayChanged s t), t) := by
  rw [stepTransaction, h]

theorem stepTransaction_of_fault {s : State} {e : Fault} (h : step s = .fault e) :
    stepTransaction s = some (.err e, s) := by
  rw [stepTransaction, h]

theorem transact_step_of_fault {s : State} {e : Fault} (h : step s = .fault e) :
    transact .step ⟨s, .running⟩ = some (.stepped (.err e), ⟨s, .running⟩) := by
  simp only [transact, stepTransaction_of_fault h, Option.map_some]

/-- A transaction that leaves the session as it was does so any number of times. -/
theorem runSchedule_replicate_of_fixed {o : Transaction} {c : Session} {r : Reply} (h : transact o c = some (r, c))
    (n : Nat) : runSchedule (List.replicate n o) c = some c := by
  induction n with
  | zero => rfl
  | succ n ih =>
    rw [List.replicate_succ, runSchedule, h]
    exact ih

/-! ### `changed` (R70) -/

theorem Display.ne_iff_exists_pixel {d e : Display} :
    d ≠ e ↔ ∃ py px, Display.pixel d py px ≠ Display.pixel e py px := by
  refine ⟨fun hne => ?_, fun ⟨py, px, hp⟩ heq => hp (heq ▸ rfl)⟩
  by_contra hall
  push Not at hall
  exact hne (Display.ext_pixel hall)

theorem displayChanged_iff {s t : State} :
    displayChanged s t = true ↔ ∃ py px, Display.pixel t.disp py px ≠ Display.pixel s.disp py px := by
  rw [displayChanged, decide_eq_true_iff, Display.ne_iff_exists_pixel]

/-! ### The statements -/

/-- Settles O12: a failing step is a transaction that leaves the session as it was, and so repeats. -/
theorem failingStepChangesNothing : Obligations.FailingStepChangesNothing := fun _ _ h =>
  ⟨stepTransaction_of_fault h, transact_step_of_fault h, runSchedule_replicate_of_fixed (transact_step_of_fault h)⟩

/-- Settles O15: displays that agree on every pixel are equal. -/
theorem changedMeansSomePixelDiffers : Obligations.ChangedMeansSomePixelDiffers :=
  ⟨fun _ _ h => ⟨_, stepTransaction_of_next h, displayChanged_iff⟩, fun _ _ => stepTransaction_of_fault⟩

/-- Settles O26, from the frame of every instruction. -/
theorem onlyClsAndDrwWriteTheDisplay : Obligations.OnlyClsAndDrwWriteTheDisplay :=
  fun _ _ _ h => (exec_frame h).disp

/-- Settles O9: the fetch in range gives the word that decodes. -/
theorem stepRunsTheDecodedInstruction : Obligations.StepRunsTheDecodedInstruction :=
  fun _ _ hpc => step_of_decode (fetch_ok hpc)

/-- Settles O10: the fetch by its range check, and the step by the cases in which one fails. -/
theorem fetchErrorsAndIllegalWords : Obligations.FetchErrorsAndIllegalWords :=
  ⟨fun _ hpc => ⟨fetch_error hpc, step_fault_iff.2 (.inl ⟨hpc, rfl⟩)⟩, fun _ => fetch_ok,
    fun _ hpc hd => step_fault_iff.2 (.inr (.inl ⟨⟨_, fetch_ok hpc, hd⟩, rfl⟩))⟩

end Sys2Proof.Machine
end

section
/-! The statements of 41_display.md: `00E0` (R73), `DXYN` (R74) and two equal draws (E3). What a draw does to pixels and
flag is `execDrw_ok`; two draws compose it, since a draw leaves alone all its sprite depends on but `VF`. -/

namespace Sys2Proof.Machine

/-! ### Encoding -/

/-- The words of a row of R57's table decode to what the row's kind makes of their fields. -/
theorem decodesRow_of_mem {r : Row} {mk : Fields → Instr} (hr : r ∈ opcodeRows)
    (hb : ∀ f : Fields, r.kind.build f.regX f.regY f.n f.nn f.nnn = some (mk f)) :
    DecodesRow r.pattern r.mask mk := by
  intro op hop
  rw [decodeWord_eq, (row_matches_iff_classify hr).1 hop]
  exact hb (fields op)

/-! ### The flag -/

theorem flagByte_eq_one_iff {c : Bool} : flagByte c = 1 ↔ c = true := by cases c <;> decide

theorem flagByte_eq_one_or_zero (c : Bool) : flagByte c = 1 ∨ flagByte c = 0 := by cases c <;> decide

/-! ### `00E0` -/

/-- Clearing changes the display exactly where a pixel was on. -/
theorem displayChanged_of_clear {s t : State} (h : t.disp = Display.clear) :
    displayChanged s t = true ↔ ∃ py px, Display.pixel s.disp py px = true := by
  simp only [displayChanged_iff, h, Display.pixel_clear, ne_eq, Bool.false_eq, Bool.not_eq_false]

/-! ### `DXYN` -/

/-- A row beyond `0xFFF` fails the draw. -/
theorem execDrw_row_fault {x y : Reg} {n : Nibble} {s : State} (h : ∃ r < n.toNat, addrMax < s.I.toNat + r) :
    exec (.drw x y n) s = .fault .invalidOperand := by
  obtain ⟨r, hr, hI⟩ := h
  exact exec_fault_iff.2 ⟨.inl ⟨by omega, by omega⟩, rfl⟩

/-- `VF` after a draw is 1 exactly when a pixel was erased. -/
theorem vf_after_draw_eq_one_iff {s : State} {d : Display} {hit : Bool} {pc : Word} :
    (((s.setDisp d).setVF hit).setPc pc).reg Reg.vf = 1 ↔ hit = true := by
  rw [State.reg_setPc, State.reg_setVF_same, flagByte_eq_one_iff]

/-- A draw changes nothing its sprite is read from, unless `VF` is one of the coordinates. -/
theorem spriteBit_after_draw {x y : Reg} (hx : x ≠ Reg.vf) (hy : y ≠ Reg.vf) (n : Nibble) (s : State) (d : Display)
    (hit : Bool) (pc : Word) : spriteBit x y n (((s.setDisp d).setVF hit).setPc pc) = spriteBit x y n s := by
  funext py px
  simp [spriteBit, State.reg_setVF_other, hx, hy]

/-! ### The statements -/

/-- Settles O29: what a draw does to every pixel, and exactly when one fails. (`drawSprite` is the model's function.) -/
theorem drawSprite_holds : Obligations.DrawSprite := by
  refine ⟨decodesRow_of_mem (r := ⟨.DRW, 0xD000, 0xF000⟩) (by decide) fun _ => rfl, fun s x y n hI hp => ?_,
    fun _ _ _ _ => execDrw_row_fault, fun _ _ _ _ hp => exec_fault_iff.2 ⟨.inr hp, rfl⟩⟩
  obtain ⟨d, hit, hexec, hpix, hhit⟩ := execDrw_ok (x := x) (y := y) hI hp
  refine ⟨_, hexec, toNat_ofNat_of_le hp, hpix, ?_, ?_, ?_⟩
  · rw [State.reg_setPc, State.reg_setVF_same]
    exact flagByte_eq_one_or_zero hit
  · simp only [vf_after_draw_eq_one_iff, hhit, State.setPc_disp, State.setVF_disp, State.setDisp_disp, hpix]
    refine exists_congr fun py => exists_congr fun px => and_congr_right fun hon => ?_
    rw [hon, Bool.true_xor, Bool.not_eq_false']
  · rw [State.reg_setPc, State.reg_setVF_same]
    rfl

/-- Settles O30: the second draw inverts the same pixels, so it erases what the first turned on. -/
theorem drawingTwiceRestoresTheDisplay : Obligations.DrawingTwiceRestoresTheDisplay := by
  intro s x y n hx hy hI hp
  have hp₁ : s.pc.toNat + 2 ≤ 0xFFF := by omega
  obtain ⟨d₁, hit₁, hexec₁, hpix₁, -⟩ := execDrw_ok (x := x) (y := y) hI hp₁
  obtain ⟨d₂, hit₂, hexec₂, hpix₂, hhit₂⟩ := execDrw_ok (x := x) (y := y) (n := n)
    (s := ((s.setDisp d₁).setVF hit₁).setPc (BitVec.ofNat 16 (s.pc.toNat + 2))) hI
    (by rw [State.setPc_pc, toNat_ofNat_of_le hp₁]; exact hp)
  simp only [spriteBit_after_draw hx hy, State.setPc_disp, State.setVF_disp, State.setDisp_disp, hpix₁] at hpix₂ hhit₂
  have hflag : hit₂ = true ↔ ∃ py px, Display.pixel s.disp py px = false ∧ spriteBit x y n s py px = true := by
    rw [hhit₂]
    refine exists_congr fun py => exists_congr fun px => and_congr_left fun hbit => ?_
    rw [hbit, Bool.xor_true, Bool.not_eq_true']
  refine ⟨_, _, hexec₁, hexec₂, Display.ext_pixel fun py px => ?_,
    vf_after_draw_eq_one_iff.trans hflag, fun hoff => vf_after_draw_eq_one_iff.trans (hflag.trans ?_)⟩
  · rw [State.setPc_disp, State.setVF_disp, State.setDisp_disp, hpix₂, Bool.xor_assoc, Bool.xor_self, Bool.xor_false]
  · simp only [hoff, true_and, exists_spriteBit_iff]

/-- Settles O28: the meaning with room for `pc`, and the error without. -/
theorem clearDisplay : Obligations.ClearDisplay := by
  refine ⟨decodesRow_of_mem (r := ⟨.CLS, 0x00E0, 0xFFFF⟩) (by decide) fun _ => rfl, fun s hp => ?_,
    fun s hp => exec_fault_iff.2 ⟨hp, rfl⟩⟩
  exact ⟨_, advance_ok (s := s.setDisp Display.clear) hp, toNat_ofNat_of_le hp, Display.pixel_clear, rfl,
    displayChanged_of_clear rfl⟩

end Sys2Proof.Machine
end

section
/-! The statements of 42_flow_control.md: `00EE` (R75), `1NNN` (R76), `2NNN` (R77) and `BNNN` (R78). What each does when
it completes is said once; the errors are cases of `exec_fault_iff`. -/

namespace Sys2Proof.Machine

/-! ### Targets -/

/-- A 12-bit target is in range (R76). -/
theorem addr_toNat_le (nnn : Addr) : nnn.toNat ≤ addrMax := Nat.le_of_lt_succ nnn.isLt

theorem jumpOffset_v0 {s : State} (h : s.cfg.jumpReg = .v0) (nnn : Addr) : jumpOffset nnn s = s.reg 0 := by
  rw [jumpOffset, jumpOffsetReg, h]

/-- Under `P_JUMP_REG = VX` the register is the one the top nibble of the target names. -/
theorem jumpOffset_vx {s : State} (h : s.cfg.jumpReg = .vx) (nnn : Addr) :
    jumpOffset nnn s = s.reg (Fin.ofNat 16 (nnn.toNat / 256)) := by
  have hx : (nnn.extractLsb' 8 4).toFin = Fin.ofNat 16 (nnn.toNat / 256) :=
    Fin.ext (by simp [Nat.shiftRight_eq_div_pow])
  rw [jumpOffset, jumpOffsetReg, h]
  exact congrArg s.reg hx

/-! ### What each instruction does when it completes -/

theorem execRet_ok {s : State} {top : Word} {rest : List Word} (hs : s.stack = top :: rest)
    (ht : top.toNat ≤ addrMax) : exec .ret s = .next ((s.setStack rest).setPc top) := by
  have h : exec .ret s = jumpTo top.toNat (s.setStack rest) := by rw [exec, execRet, pop_cons hs, orRaise_ok]
  rw [h, jumpTo_ok ht, BitVec.ofNat_toNat, BitVec.setWidth_eq]

theorem execJp_ok (nnn : Addr) (s : State) : exec (.jp nnn) s = .next (s.setPc (BitVec.ofNat 16 nnn.toNat)) :=
  jumpTo_ok (addr_toNat_le nnn)

theorem execCall_ok {nnn : Addr} {s : State} (hd : s.stack.length < stackDepth) (hp : s.pc.toNat + 2 ≤ addrMax) :
    exec (.call nnn) s =
      .next ((s.setStack (BitVec.ofNat 16 (s.pc.toNat + 2) :: s.stack)).setPc (BitVec.ofNat 16 nnn.toNat)) := by
  have hret : ¬ s.pc.toNat + insnBytes > addrMax := Nat.not_lt.2 hp
  rw [exec, execCall, push_ok hd, orRaise_ok, if_neg hret, jumpTo_ok (addr_toNat_le nnn)]

theorem execJpV0_ok {nnn : Addr} {s : State} (h : nnn.toNat + (jumpOffset nnn s).toNat ≤ addrMax) :
    exec (.jpV0 nnn) s = .next (s.setPc (BitVec.ofNat 16 (nnn.toNat + (jumpOffset nnn s).toNat))) :=
  jumpTo_ok h

/-! ### The statements -/

/-- Settles O35: the return pops the entry the call pushed, which leaves the stack as it was before the call. -/
theorem returnUndoesCall : Obligations.ReturnUndoesCall := by
  intro s nnn hd hp
  have hret : (BitVec.ofNat 16 (s.pc.toNat + 2)).toNat = s.pc.toNat + 2 := toNat_ofNat_of_le hp
  exact ⟨_, _, execCall_ok hd hp, execRet_ok (State.setPc_stack _ _) (hret.trans_le hp), hret, rfl⟩

/-- Settles O31: a top entry in range is the new `pc`, and an empty stack is the error. -/
theorem returnFromSubroutine : Obligations.ReturnFromSubroutine := by
  refine ⟨decodesRow_of_mem (r := ⟨.RET, 0x00EE, 0xFFFF⟩) (by decide) fun _ => rfl, fun s top rest hs ht => ?_,
    fun s hs => ?_⟩
  · exact execRet_ok hs ht
  · exact exec_fault_iff.2 (.inl ⟨hs, rfl⟩)

/-- Settles O32: every 12-bit target is in range. -/
theorem jump : Obligations.Jump := by
  refine ⟨decodesRow_of_mem (r := ⟨.JP, 0x1000, 0xF000⟩) (by decide) fun _ => rfl, fun s nnn => ?_⟩
  exact ⟨_, execJp_ok nnn s, toNat_ofNat_of_le (addr_toNat_le nnn), rfl⟩

/-- Settles O33: the three cases of depth and return address. -/
theorem callSubroutine : Obligations.CallSubroutine := by
  refine ⟨decodesRow_of_mem (r := ⟨.CALL, 0x2000, 0xF000⟩) (by decide) fun _ => rfl, fun s nnn hd hp => ?_,
    fun s nnn hd => ?_, fun s nnn hd hp => ?_⟩
  · exact ⟨_, _, execCall_ok hd hp, toNat_ofNat_of_le (addr_toNat_le nnn), rfl, toNat_ofNat_of_le hp, rfl⟩
  · exact exec_fault_iff.2 (.inl ⟨hd, rfl⟩)
  · exact exec_fault_iff.2 (.inr ⟨⟨hd, hp⟩, rfl⟩)

/-- Settles O34: both configurations give the offset the statement names, and the exact sum decides. -/
theorem jumpWithOffset : Obligations.JumpWithOffset := by
  refine ⟨decodesRow_of_mem (r := ⟨.JP_V0, 0xB000, 0xF000⟩) (by decide) fun _ => rfl, fun s nnn off hoff => ?_⟩
  obtain rfl : off = jumpOffset nnn s := by
    obtain ⟨hc, rfl⟩ | ⟨hc, rfl⟩ := hoff
    · exact (jumpOffset_v0 hc nnn).symm
    · exact (jumpOffset_vx hc nnn).symm
  refine ⟨fun h => ?_, fun h => ?_⟩
  · exact ⟨_, execJpV0_ok h, toNat_ofNat_of_le h, rfl⟩
  · exact exec_fault_iff.2 ⟨h, rfl⟩

end Sys2Proof.Machine
end

section
/-! The statements of 43_skips.md: `3XNN` (R79), `4XNN` (R80), `5XY0` (R81) and `9XY0` (R82). Each is a jump to `pc + 4`
or to `pc + 2`, the instruction on equal and the one on unequal values with opposite conditions. -/

namespace Sys2Proof.Machine

/-! ### Jumps and skips -/

/-- The whole of what a result that is a jump says: only `pc` changes, and a target out of range is the error (R67). -/
theorem pc_only_or_fault_of_eq_jumpTo {r : Result} {a : Nat} {s : State} (h : r = jumpTo a s) :
    (a ≤ addrMax → ∃ t, r = .next t ∧ t.pc.toNat = a ∧ t = s.setPc t.pc) ∧
    (addrMax < a → r = .fault .invalidOperand) :=
  ⟨fun ha => ⟨_, h.trans (jumpTo_ok ha), toNat_ofNat_of_le ha, rfl⟩, fun ha => h.trans (jumpTo_error ha)⟩

section
variable {i onEq onNe : Instr} {s : State} {a b : Byte} (hEq : exec onEq s = skipIf (a == b) s)
  (hNe : exec onNe s = skipIf (a != b) s)
include hEq hNe

/-- Of a pair of opposite skips, the one whose condition holds goes to `pc + 4`. -/
theorem exec_skip_of_condition (h : (i = onEq ∧ a = b) ∨ (i = onNe ∧ a ≠ b)) :
    exec i s = jumpTo (s.pc.toNat + 4) s := by
  obtain ⟨rfl, heq⟩ | ⟨rfl, hne⟩ := h
  · rw [hEq, beq_iff_eq.2 heq, skipIf_true]
  · rw [hNe, bne_iff_ne.2 hne, skipIf_true]

/-- Of a pair of opposite skips, the one whose condition fails goes to `pc + 2`. -/
theorem exec_skip_of_not_condition (h : (i = onEq ∧ a ≠ b) ∨ (i = onNe ∧ a = b)) :
    exec i s = jumpTo (s.pc.toNat + 2) s := by
  obtain ⟨rfl, hne⟩ | ⟨rfl, heq⟩ := h
  · rw [hEq, beq_eq_false_iff_ne.2 hne, skipIf_false]
  · rw [hNe, bne_eq_false_iff_eq.2 heq, skipIf_false]

end

/-! ### The statements -/

/-- Settles O36: the two are opposite skips on `Vx` and `NN`. -/
theorem skipOnImmediate : Obligations.SkipOnImmediate := by
  refine ⟨decodesRow_of_mem (r := ⟨.SE_IMM, 0x3000, 0xF000⟩) (by decide) fun _ => rfl,
    decodesRow_of_mem (r := ⟨.SNE_IMM, 0x4000, 0xF000⟩) (by decide) fun _ => rfl, fun s x nn i h => ?_, fun s x nn i h => ?_⟩
  · exact pc_only_or_fault_of_eq_jumpTo (exec_skip_of_condition rfl rfl h)
  · exact pc_only_or_fault_of_eq_jumpTo (exec_skip_of_not_condition rfl rfl h)

/-- Settles O37: the two are opposite skips on `Vx` and `Vy`. -/
theorem skipOnRegisters : Obligations.SkipOnRegisters := by
  refine ⟨decodesRow_of_mem (r := ⟨.SE_REG, 0x5000, 0xF00F⟩) (by decide) fun _ => rfl,
    decodesRow_of_mem (r := ⟨.SNE_REG, 0x9000, 0xF00F⟩) (by decide) fun _ => rfl, fun s x y i h => ?_, fun s x y i h => ?_⟩
  · exact pc_only_or_fault_of_eq_jumpTo (exec_skip_of_condition rfl rfl h)
  · exact pc_only_or_fault_of_eq_jumpTo (exec_skip_of_not_condition rfl rfl h)

end Sys2Proof.Machine
end

section
/-! The statements of 44_alu.md: loads, arithmetic, logic, shifts (R83 to R93) and `CXNN` (R94). There are three shapes
of write: one register; the result and then the flag; the flag and then the result (R66). What each leaves is said once,
and each statement adds the value its rule gives. The errors are cases of `exec_fault_iff`. -/

namespace Sys2Proof.Machine

/-! ### Values -/

theorem flagByte_decide (p : Prop) [Decidable p] : flagByte (decide p) = if p then 1 else 0 := by
  simp only [flagByte, decide_eq_true_eq]

theorem toNat_flagByte (c : Bool) : (flagByte c).toNat = c.toNat := by cases c <;> rfl

theorem toNat_byte_sub (a b : Byte) : (a - b).toNat = (a.toNat + 256 - b.toNat) % 256 := by
  have hb := b.isLt
  rw [BitVec.toNat_sub', ← Nat.add_sub_assoc hb.le]

theorem toNat_shiftRight_one (a : Byte) : (a >>> 1).toNat = a.toNat / 2 := by
  rw [BitVec.toNat_ushiftRight, Nat.shiftRight_one]

theorem toNat_shiftLeft_one (a : Byte) : (a <<< 1).toNat = 2 * a.toNat % 256 := by
  rw [BitVec.toNat_shiftLeft, Nat.shiftLeft_eq, Nat.mul_comm]

theorem toNat_flagByte_lowBit (a : Byte) : (flagByte (lowBit a)).toNat = a.toNat % 2 := by
  have h : (lowBit a).toNat = a.toNat / 2 ^ 0 % 2 := Nat.toNat_testBit a.toNat 0
  rw [toNat_flagByte, h, Nat.pow_zero, Nat.div_one]

theorem toNat_flagByte_highBit (a : Byte) : (flagByte (highBit a)).toNat = a.toNat / 128 := by
  have h : (highBit a).toNat = a.toNat / 2 ^ 7 % 2 := Nat.toNat_testBit a.toNat 7
  have ha := a.isLt
  rw [toNat_flagByte, h]
  omega

theorem shiftSource_vy {s : State} (h : s.cfg.shiftSrc = .vy) (x y : Reg) : shiftSource x y s = s.reg y := by
  rw [shiftSource, h]

theorem shiftSource_vx {s : State} (h : s.cfg.shiftSrc = .vx) (x y : Reg) : shiftSource x y s = s.reg x := by
  rw [shiftSource, h]

/-! ### Two writes, of which one is to `VF` -/

/-- Writes to different registers commute. -/
theorem State.setReg_comm {x y : Reg} (h : x ≠ y) (s : State) (b c : Byte) :
    (s.setReg x b).setReg y c = (s.setReg y c).setReg x b := by
  simp only [State.setReg, Vector.set_comm _ _ (Fin.val_ne_of_ne h)]

/-- Writing the result and then the flag changes `V[x]` and `VF` alone. -/
theorem State.setReg_setVF_frame {s u : State} {x : Reg} {b : Byte} {c : Bool} (h : u = (s.setReg x b).setVF c) :
    u = (s.setReg x (u.reg x)).setReg Reg.vf (u.reg Reg.vf) := by
  subst h
  by_cases hx : x = Reg.vf
  · subst hx
    simp [State.setVF]
  · simp [State.setVF, State.reg_setReg_other _ _ _ _ hx]

/-- Writing the flag and then the result changes `V[x]` and `VF` alone. -/
theorem State.setVF_setReg_frame {s u : State} {x : Reg} {b : Byte} {c : Bool} (h : u = (s.setVF c).setReg x b) :
    u = (s.setReg x (u.reg x)).setReg Reg.vf (u.reg Reg.vf) := by
  subst h
  by_cases hx : x = Reg.vf
  · subst hx
    simp [State.setVF]
  · simp [State.setVF, State.setReg_comm hx, State.reg_setReg_other _ _ _ _ (Ne.symm hx)]

/-! ### What the three shapes leave -/

section
variable {r : Result} {s : State} {x : Reg} {b : Byte} {c : Bool}

/-- One register and `pc`. -/
theorem next_of_eq_advance_setReg (h : r = advance (s.setReg x b)) (hp : s.pc.toNat + 2 ≤ 0xFFF) :
    ∃ t, r = .next t ∧ t.reg x = b ∧ t.pc.toNat = s.pc.toNat + 2 ∧ t = (s.setReg x (t.reg x)).setPc t.pc := by
  refine ⟨_, h.trans (advance_ok hp), ?_, toNat_ofNat_of_le hp, ?_⟩
  · rw [State.reg_setPc, State.reg_setReg_same]
  · rw [State.reg_setPc, State.reg_setReg_same, State.setPc_pc, State.setReg_pc]

/-- The result and then the flag: the flag is the final `VF` also where `x` is `VF`. -/
theorem next_of_eq_advance_setReg_setVF (h : r = advance ((s.setReg x b).setVF c)) (hp : s.pc.toNat + 2 ≤ 0xFFF) :
    ∃ t, r = .next t ∧ t.pc.toNat = s.pc.toNat + 2 ∧ (x ≠ Reg.vf → t.reg x = b) ∧ t.reg Reg.vf = flagByte c ∧
      t = ((s.setReg x (t.reg x)).setReg Reg.vf (t.reg Reg.vf)).setPc t.pc := by
  refine ⟨_, h.trans (advance_ok hp), toNat_ofNat_of_le hp, fun hx => ?_, ?_, ?_⟩
  · rw [State.reg_setPc, State.reg_setVF_other _ _ _ hx, State.reg_setReg_same]
  · rw [State.reg_setPc, State.reg_setVF_same]
  · exact congrArg (State.setPc · _) (State.setReg_setVF_frame rfl)

/-- The flag and then the result: where `x` is `VF`, the flag is lost. -/
theorem next_of_eq_advance_setVF_setReg (h : r = advance ((s.setVF c).setReg x b)) (hp : s.pc.toNat + 2 ≤ 0xFFF) :
    ∃ t, r = .next t ∧ t.pc.toNat = s.pc.toNat + 2 ∧ t.reg x = b ∧ (x ≠ Reg.vf → t.reg Reg.vf = flagByte c) ∧
      t = ((s.setReg x (t.reg x)).setReg Reg.vf (t.reg Reg.vf)).setPc t.pc := by
  refine ⟨_, h.trans (advance_ok hp), toNat_ofNat_of_le hp, ?_, fun hx => ?_, ?_⟩
  · rw [State.reg_setPc, State.reg_setReg_same]
  · rw [State.reg_setPc, State.reg_setReg_other _ _ _ _ hx.symm, State.reg_setVF_same]
  · exact congrArg (State.setPc · _) (State.setVF_setReg_frame rfl)

end

/-! ### The statements -/

/-- Settles O39: each writes one register. -/
theorem loadAndAddImmediate : Obligations.LoadAndAddImmediate := by
  refine ⟨decodesRow_of_mem (r := ⟨.LD_IMM, 0x6000, 0xF000⟩) (by decide) fun _ => rfl,
    decodesRow_of_mem (r := ⟨.ADD_IMM, 0x7000, 0xF000⟩) (by decide) fun _ => rfl,
    fun s x nn hp => next_of_eq_advance_setReg rfl hp, fun s x nn hp => ?_,
    fun s x nn hp => ⟨exec_fault_iff.2 ⟨hp, rfl⟩, exec_fault_iff.2 ⟨hp, rfl⟩⟩⟩
  obtain ⟨t, ht, hx, hpc, hframe⟩ := next_of_eq_advance_setReg (r := exec (.addImm x nn) s) rfl hp
  exact ⟨t, ht, hx ▸ BitVec.toNat_add _ _, hpc, hframe⟩

/-- Settles O40: each writes one register, and the bits of a logic operation are those of its operands. -/
theorem copyAndLogic : Obligations.CopyAndLogic := by
  refine ⟨decodesRow_of_mem (r := ⟨.LD_REG, 0x8000, 0xF00F⟩) (by decide) fun _ => rfl,
    decodesRow_of_mem (r := ⟨.OR, 0x8001, 0xF00F⟩) (by decide) fun _ => rfl,
    decodesRow_of_mem (r := ⟨.AND, 0x8002, 0xF00F⟩) (by decide) fun _ => rfl,
    decodesRow_of_mem (r := ⟨.XOR, 0x8003, 0xF00F⟩) (by decide) fun _ => rfl,
    fun s x y hp => ⟨next_of_eq_advance_setReg rfl hp, ?_, ?_, ?_⟩, fun s x y hp i hi => ?_⟩
  · obtain ⟨t, ht, hx, hpc, hframe⟩ := next_of_eq_advance_setReg (r := exec (.orReg x y) s) rfl hp
    exact ⟨t, ht, fun _ _ => hx ▸ BitVec.getLsbD_or, hpc, hframe⟩
  · obtain ⟨t, ht, hx, hpc, hframe⟩ := next_of_eq_advance_setReg (r := exec (.andReg x y) s) rfl hp
    exact ⟨t, ht, fun _ _ => hx ▸ BitVec.getLsbD_and, hpc, hframe⟩
  · obtain ⟨t, ht, hx, hpc, hframe⟩ := next_of_eq_advance_setReg (r := exec (.xorReg x y) s) rfl hp
    exact ⟨t, ht, fun _ _ => hx ▸ BitVec.getLsbD_xor, hpc, hframe⟩
  · simp only [List.mem_cons, List.not_mem_nil, or_false] at hi
    obtain rfl | rfl | rfl | rfl := hi <;> exact exec_fault_iff.2 ⟨hp, rfl⟩

/-- Settles O41: the sum, then the carry. -/
theorem addRegisters : Obligations.AddRegisters := by
  refine ⟨decodesRow_of_mem (r := ⟨.ADD_REG, 0x8004, 0xF00F⟩) (by decide) fun _ => rfl, fun s x y hp => ?_,
    fun s x y hp => exec_fault_iff.2 ⟨hp, rfl⟩⟩
  obtain ⟨t, ht, hpc, hx, hvf, hframe⟩ := next_of_eq_advance_setReg_setVF (r := exec (.addReg x y) s) rfl hp
  exact ⟨t, ht, hpc, fun h => hx h ▸ BitVec.toNat_add _ _, hvf.trans (flagByte_decide _), hframe⟩

/-- Settles O42: the difference, then the no-borrow flag. -/
theorem subtractRegisters : Obligations.SubtractRegisters := by
  refine ⟨decodesRow_of_mem (r := ⟨.SUB, 0x8005, 0xF00F⟩) (by decide) fun _ => rfl, fun s x y hp => ?_,
    fun s x y hp => exec_fault_iff.2 ⟨hp, rfl⟩⟩
  obtain ⟨t, ht, hpc, hx, hvf, hframe⟩ := next_of_eq_advance_setReg_setVF (r := exec (.sub x y) s) rfl hp
  exact ⟨t, ht, hpc, fun h => hx h ▸ toNat_byte_sub _ _, hvf.trans (flagByte_decide _), hframe⟩

/-- Settles O43: the reversed difference, then the no-borrow flag of the operands before the step. -/
theorem subtractReversed : Obligations.SubtractReversed := by
  refine ⟨decodesRow_of_mem (r := ⟨.SUBN, 0x8007, 0xF00F⟩) (by decide) fun _ => rfl, fun s x y hp => ?_,
    fun s x y hp => exec_fault_iff.2 ⟨hp, rfl⟩⟩
  obtain ⟨t, ht, hpc, hx, hvf, hframe⟩ := next_of_eq_advance_setReg_setVF (r := exec (.subn x y) s) rfl hp
  exact ⟨t, ht, hpc, fun h => hx h ▸ toNat_byte_sub _ _, hvf.trans (flagByte_decide _), hframe⟩

/-- Settles O44: the bit shifted out, then the shifted value, of the source either configuration names. -/
theorem shifts : Obligations.Shifts := by
  refine ⟨decodesRow_of_mem (r := ⟨.SHR, 0x8006, 0xF00F⟩) (by decide) fun _ => rfl,
    decodesRow_of_mem (r := ⟨.SHL, 0x800E, 0xF00F⟩) (by decide) fun _ => rfl, fun s x y src hp hsrc => ?_,
    fun s x y hp => ⟨exec_fault_iff.2 ⟨hp, rfl⟩, exec_fault_iff.2 ⟨hp, rfl⟩⟩⟩
  obtain rfl : src = shiftSource x y s := by
    obtain ⟨hc, rfl⟩ | ⟨hc, rfl⟩ := hsrc
    · exact (shiftSource_vy hc x y).symm
    · exact (shiftSource_vx hc x y).symm
  constructor
  · obtain ⟨t, ht, hpc, hx, hvf, hframe⟩ := next_of_eq_advance_setVF_setReg (r := exec (.shr x y) s) rfl hp
    exact ⟨t, ht, hpc, hx ▸ toNat_shiftRight_one _, fun h => hvf h ▸ toNat_flagByte_lowBit _, hframe⟩
  · obtain ⟨t, ht, hpc, hx, hvf, hframe⟩ := next_of_eq_advance_setVF_setReg (r := exec (.shl x y) s) rfl hp
    exact ⟨t, ht, hpc, hx ▸ toNat_shiftLeft_one _, fun h => hvf h ▸ toNat_flagByte_highBit _, hframe⟩

/-- Settles O45: one register and the draw counter, for whatever byte is drawn. -/
theorem randomMasked : Obligations.RandomMasked := by
  refine ⟨decodesRow_of_mem (r := ⟨.RND, 0xC000, 0xF000⟩) (by decide) fun _ => rfl, fun s x nn hp => ?_,
    fun s x nn hp => exec_fault_iff.2 ⟨hp, rfl⟩⟩
  have hx : ((s.setReg x (Config.freeByte s.draws &&& nn)).countDraw).reg x = Config.freeByte s.draws &&& nn := by
    rw [State.reg_countDraw, State.reg_setReg_same]
  refine ⟨_, advance_ok (s := (s.setReg x (Config.freeByte s.draws &&& nn)).countDraw) hp, toNat_ofNat_of_le hp, rfl,
    fun _ _ => ?_, ?_⟩
  · rw [State.reg_setPc, hx, BitVec.getLsbD_and]
  · rw [State.reg_setPc, hx, State.setPc_pc]

end Sys2Proof.Machine
end

section
/-! The statements of 45_index_memory.md: loads of and additions to `I` (R96 to R98), the stores `FX33` (R99) and `FX55`
(R100), and the load `FX65` (R101). What a store or a load that completes does is said once; the frame of a store and the
errors are cases of `onlyTheStoredBytesChange` and `exec_fault_iff`. -/

namespace Sys2Proof.Machine

/-! ### Values -/

theorem toNat_addrWord (nnn : Addr) : (addrWord nnn).toNat = nnn.toNat :=
  BitVec.toNat_setWidth_of_le (by decide)

/-- The largest glyph address, `0x050 + 5 * 255`, is far below the modulus of `I` (R98). -/
theorem toNat_glyphAddr (d : Byte) : (glyphAddr d).toNat = 0x050 + 5 * d.toNat := by
  have hd := d.isLt
  exact toNat_ofNat_of_le (by simp only [fontBase, glyphBytes, addrMax]; omega)

theorem toNat_index_add (i : Word) (b : Byte) : (i + b.setWidth 16).toNat = (i.toNat + b.toNat) % 65536 := by
  rw [BitVec.toNat_add, BitVec.toNat_setWidth_of_le (by decide)]

/-- A byte holds every number up to a byte's value, its decimal digits among them (R99). -/
theorem toNat_ofNat_of_le_byte {n : Nat} {v : Byte} (h : n ≤ v.toNat) : (BitVec.ofNat 8 n).toNat = n :=
  (BitVec.toNat_ofNat n 8).trans (Nat.mod_eq_of_lt (h.trans_lt v.isLt))

/-! ### What each shape does when it completes -/

/-- A load of `I`. -/
theorem next_of_eq_advance_setI {r : Result} {s : State} {v : Word} (h : r = advance (s.setI v))
    (hp : s.pc.toNat + 2 ≤ 0xFFF) :
    ∃ t, r = .next t ∧ t.I = v ∧ t.pc.toNat = s.pc.toNat + 2 ∧ t = (s.setI t.I).setPc t.pc :=
  ⟨_, h.trans (advance_ok hp), rfl, toNat_ofNat_of_le hp, rfl⟩

/-- A store of bytes at `I`, all in range. -/
theorem storeList_ok {bs : List Byte} {s : State} (hI : s.I.toNat + bs.length ≤ addrMax + 1)
    (hp : s.pc.toNat + 2 ≤ addrMax) :
    orRaise (memWriteList (indexBase s) bs s) advance =
      .next ((s.setMem (s.mem.writeList s.I.toNat bs)).setPc (BitVec.ofNat 16 (s.pc.toNat + 2))) := by
  rw [indexBase, memWriteList_ok (.inr hI), orRaise_ok]
  exact advance_ok hp

/-- `FX55` in range: the bytes from `I` on are those of `V0` to `Vx`. -/
theorem execLdMemVx_ok {x : Reg} {s : State} (hwf : s.mem.wf = true) (hI : s.I.toNat + x.val ≤ addrMax)
    (hp : s.pc.toNat + 2 ≤ addrMax) :
    ∃ m : Memory, exec (.ldMemVx x) s = .next ((s.setMem m).setPc (BitVec.ofNat 16 (s.pc.toNat + 2))) ∧
      ∀ r : Reg, r.val ≤ x.val → m.read (s.I.toNat + r.val) = s.reg r := by
  obtain ⟨bs, hread, hlen, hget⟩ := readRegs_ok (k := 0) (n := x.val + 1) (s := s) (by rw [Nat.zero_add]; exact x.isLt)
  have hI' : s.I.toNat + bs.length ≤ addrMax + 1 := by omega
  refine ⟨s.mem.writeList s.I.toNat bs, ?_, fun r hr => ?_⟩
  · rw [exec, execLdMemVx, hread, orRaise_ok, storeList_ok hI' hp]
  · have hlt : r.val < bs.length := by omega
    have hbyte : bs[r.val]? = some (s.reg r) := hget r (Nat.zero_le _) (by omega)
    rw [Memory.read_writeList_inside hwf hI' hlt]
    exact Option.some.inj ((List.getElem?_eq_getElem hlt).symm.trans hbyte)

/-- `FX65` in range: `V0` to `Vx` are the bytes from `I` on, and the registers above are kept. -/
theorem execLdVxMem_ok {x : Reg} {s : State} (hI : s.I.toNat + x.val ≤ addrMax) (hp : s.pc.toNat + 2 ≤ addrMax) :
    ∃ V : RegFile, exec (.ldVxMem x) s = .next (({ s with V := V } : State).setPc (BitVec.ofNat 16 (s.pc.toNat + 2))) ∧
      (∀ r : Reg, r.val ≤ x.val → V.get r = s.byteAt (s.I.toNat + r.val)) ∧
      (∀ r : Reg, x.val < r.val → V.get r = s.reg r) := by
  have hread : memReadList (indexBase s) (x.val + 1) s = .ok _ := memReadList_ok (.inr (Nat.succ_le_succ hI))
  obtain ⟨V, hwrite, hget⟩ := writeRegs_ok (k := 0) (s := s)
    (bs := (List.range (x.val + 1)).map fun k => s.byteAt (indexBase s + k)) (by simp)
  refine ⟨V, ?_, fun r hr => ?_, fun r hr => ?_⟩
  · rw [exec, execLdVxMem, hread, orRaise_ok, hwrite, orRaise_ok]
    exact advance_ok (s := { s with V := V }) hp
  · rw [hget r, if_neg (Nat.not_lt_zero _), List.getD_eq_getElem _ _ (by simpa using Nat.lt_succ_of_le hr),
      List.getElem_map, List.getElem_range]
    rfl
  · rw [hget r, if_neg (Nat.not_lt_zero _), List.getD_eq_default _ _ (by simpa using hr)]

/-! ### The statements -/

/-- Settles O51: `I` and memory are between as the store left them, so the load reads back the bytes stored. -/
theorem loadAfterStoreRestoresRegisters : Obligations.LoadAfterStoreRestoresRegisters := by
  intro s x between hwf hI hp
  have hp₁ : s.pc.toNat + 2 ≤ 0xFFF := by omega
  obtain ⟨m, hstore, hmem⟩ := execLdMemVx_ok hwf hI hp₁
  obtain ⟨V, hload, hlow, hhigh⟩ := execLdVxMem_ok (x := x)
    (s := { (s.setMem m).setPc (BitVec.ofNat 16 (s.pc.toNat + 2)) with V := between }) hI
    (by rw [State.setPc_pc, toNat_ofNat_of_le hp₁]; exact hp)
  exact ⟨_, _, hstore, hload, fun r hr => (hlow r hr).trans (hmem r hr), hhigh⟩

/-- Settles O46: each loads `I` with one word. -/
theorem loadIndex : Obligations.LoadIndex := by
  refine ⟨decodesRow_of_mem (r := ⟨.LD_I, 0xA000, 0xF000⟩) (by decide) fun _ => rfl,
    decodesRow_of_mem (r := ⟨.LD_F_VX, 0xF029, 0xF0FF⟩) (by decide) fun _ => rfl, fun s nnn hp => ?_, fun s x hp => ?_,
    fun s x nnn hp => ⟨exec_fault_iff.2 ⟨hp, rfl⟩, exec_fault_iff.2 ⟨hp, rfl⟩⟩⟩
  · obtain ⟨t, ht, hI, hpc, hframe⟩ := next_of_eq_advance_setI (r := exec (.ldI nnn) s) rfl hp
    exact ⟨t, ht, hI ▸ toNat_addrWord nnn, hpc, hframe⟩
  · obtain ⟨t, ht, hI, hpc, hframe⟩ := next_of_eq_advance_setI (r := exec (.ldFVx x) s) rfl hp
    exact ⟨t, ht, hI ▸ toNat_glyphAddr _, hpc, hframe⟩

/-- Settles O47: without `P_FX1E_VF` a load of `I` with the sum; with it, `VF` is written after `I`. -/
theorem addToIndex : Obligations.AddToIndex := by
  refine ⟨decodesRow_of_mem (r := ⟨.ADD_I_VX, 0xF01E, 0xF0FF⟩) (by decide) fun _ => rfl, fun s x hp => ?_,
    fun s x hp => exec_fault_iff.2 ⟨hp, rfl⟩⟩
  cases hc : s.cfg.fx1eVf with
  | false =>
    have h : exec (.addIVx x) s = advance (s.setI (s.I + (s.reg x).setWidth 16)) := by
      simp only [exec, execAddIVx, hc, Bool.false_eq_true, if_false]
    refine ⟨_, h.trans (advance_ok hp), toNat_ofNat_of_le hp, toNat_index_add _ _, nofun, fun _ => rfl, ?_⟩
    exact congrArg (State.setPc · _) (State.setReg_reg _ _).symm
  | true =>
    have h : exec (.addIVx x) s =
        advance ((s.setI (s.I + (s.reg x).setWidth 16)).setVF (indexOverflow s.I (s.reg x))) := by
      simp only [exec, execAddIVx, hc, if_true]
    have hvf : ∀ u : State, (u.setVF (indexOverflow s.I (s.reg x))).reg Reg.vf =
        if s.I.toNat + (s.reg x).toNat > 0xFFF then 1 else 0 :=
      fun u => (State.reg_setVF_same _ _).trans (flagByte_decide _)
    refine ⟨_, h.trans (advance_ok hp), toNat_ofNat_of_le hp, toNat_index_add _ _, fun _ => hvf _, nofun, ?_⟩
    exact congrArg (State.setPc · _) (congrArg _ (State.reg_setVF_same _ _).symm)

/-- Settles O48: the three bytes stored are the digits. -/
theorem storeDecimalDigits : Obligations.StoreDecimalDigits := by
  refine ⟨decodesRow_of_mem (r := ⟨.LD_B_VX, 0xF033, 0xF0FF⟩) (by decide) fun _ => rfl, fun s x hwf hI hp => ?_,
    fun s x h => exec_fault_iff.2 ⟨h, rfl⟩⟩
  have hI' : s.I.toNat + (decimalDigits (s.reg x)).length ≤ addrMax + 1 := Nat.succ_le_succ hI
  have hexec : exec (.ldBVx x) s = .next _ := storeList_ok hI' hp
  have hdigit : ∀ i n (hi : i < 3), (decimalDigits (s.reg x))[i] = BitVec.ofNat 8 n → n ≤ (s.reg x).toNat →
      ((s.mem.writeList s.I.toNat (decimalDigits (s.reg x))).read (s.I.toNat + i)).toNat = n := by
    intro i n hi hn hle
    rw [Memory.read_writeList_inside hwf hI' hi, hn, toNat_ofNat_of_le_byte hle]
  exact ⟨_, hexec, toNat_ofNat_of_le hp, hdigit 0 _ (by decide) rfl (by omega), hdigit 1 _ (by decide) rfl (by omega),
    hdigit 2 _ (by decide) rfl (by omega), onlyTheStoredBytesChange _ _ _ hexec, rfl⟩

/-- Settles O49: the bytes stored are the registers, and no other byte changes. -/
theorem storeRegisters : Obligations.StoreRegisters := by
  refine ⟨decodesRow_of_mem (r := ⟨.LD_MEM_VX, 0xF055, 0xF0FF⟩) (by decide) fun _ => rfl, fun s x hwf hI hp => ?_,
    fun s x h => exec_fault_iff.2 ⟨h, rfl⟩⟩
  obtain ⟨m, hexec, hmem⟩ := execLdMemVx_ok hwf hI hp
  exact ⟨_, hexec, toNat_ofNat_of_le hp, hmem, onlyTheStoredBytesChange _ _ _ hexec, rfl⟩

/-- Settles O50: the registers loaded are the bytes from `I` on. -/
theorem loadRegisters : Obligations.LoadRegisters := by
  refine ⟨decodesRow_of_mem (r := ⟨.LD_VX_MEM, 0xF065, 0xF0FF⟩) (by decide) fun _ => rfl, fun s x hI hp => ?_,
    fun s x h => exec_fault_iff.2 ⟨h, rfl⟩⟩
  obtain ⟨V, hexec, hlow, hhigh⟩ := execLdVxMem_ok hI hp
  exact ⟨_, hexec, toNat_ofNat_of_le hp, hlow, hhigh, rfl⟩

end Sys2Proof.Machine
end

section
/-! The statements of 46_keys_timers.md: the key skips (R102, R103), the timers (R104, R106, R107) and the wait of
`FX0A` (R105). `FX0A` has three cases, each said once: it starts its wait, holds in it, and completes once a key is
latched. -/

namespace Sys2Proof.Machine

/-! ### Key skips -/

/-- With a key number, `EX9E` and `EXA1` are opposite skips on that key. -/
theorem exec_keySkip {i : Instr} {s : State} {x : Reg} {k : Key} {c : Bool} (hk : (s.reg x).toNat = k.val)
    (h : (i = .skp x ∧ s.keyDown k = c) ∨ (i = .sknp x ∧ s.keyDown k = !c)) : exec i s = skipIf c s := by
  obtain ⟨rfl, hdown⟩ | ⟨rfl, hdown⟩ := h
  · rw [exec, execSkp, keyOperand_ok hk, orRaise_ok, hdown]
  · rw [exec, execSknp, keyOperand_ok hk, orRaise_ok, hdown, Bool.not_not]

/-! ### Timers -/

theorem soundActive_iff {s : State} : soundActive s = true ↔ s.ST ≠ 0 :=
  decide_eq_true_iff.trans (Nat.pos_iff_ne_zero.trans (BitVec.toNat_ne (y := 0)).symm)

/-! ### The three cases of `FX0A` -/

theorem toNat_keyByte (k : Key) : (keyByte k).toNat = k.val :=
  (BitVec.toNat_ofNat k.val 8).trans (Nat.mod_eq_of_lt (k.isLt.trans (by decide)))

theorem exec_ldVxK_start {s : State} (x : Reg) (hw : s.kwait = false) :
    exec (.ldVxK x) s = .next (s.setWait true none) := by
  rw [exec, execLdVxK, hw]
  rfl

theorem exec_ldVxK_hold {s : State} (x : Reg) (hw : s.kwait = true) (hl : s.klatch = none) :
    exec (.ldVxK x) s = .next s := by
  rw [exec, execLdVxK, hw, hl]
  rfl

theorem exec_ldVxK_latched {s : State} {k : Key} (x : Reg) (hw : s.kwait = true) (hl : s.klatch = some k) :
    exec (.ldVxK x) s = advance ((s.setReg x (keyByte k)).setWait false none) := by
  rw [exec, execLdVxK, hw, hl]
  rfl

/-- With room for `pc`, the latched key completes the wait. -/
theorem exec_ldVxK_complete {s : State} {k : Key} (x : Reg) (hw : s.kwait = true) (hl : s.klatch = some k)
    (hp : s.pc.toNat + 2 ≤ 0xFFF) :
    ∃ t, exec (.ldVxK x) s = .next t ∧ (t.reg x).toNat = k.val ∧ t.kwait = false ∧ t.klatch = none ∧
      t.pc.toNat = s.pc.toNat + 2 ∧ t = ((s.setReg x (t.reg x)).setWait false none).setPc t.pc := by
  refine ⟨_, (exec_ldVxK_latched x hw hl).trans (advance_ok hp), ?_, rfl, rfl, toNat_ofNat_of_le hp, ?_⟩
  · rw [State.reg_setPc, State.reg_setWait, State.reg_setReg_same, toNat_keyByte]
  · rw [State.reg_setPc, State.reg_setWait, State.reg_setReg_same, State.setPc_pc, State.setWait_pc, State.setReg_pc]

/-! ### The latch -/

/-- The first edge in a wait latches its key. -/
theorem pressKey_klatch_of_edge {s : State} {k : Key} (hw : s.kwait = true) (hl : s.klatch = none)
    (hup : s.keyDown k = false) : (pressKey k true s).klatch = some k := by
  simp [pressKey_klatch, hw, hl, hup]

/-- A latched key stays, whatever key event comes. -/
theorem pressKey_klatch_of_latched {s : State} {k : Key} (j : Key) (p : Bool) (hl : s.klatch = some k) :
    (pressKey j p s).klatch = some k := by
  simp [pressKey_klatch, hl]

/-! ### A wait is at its `FX0A` -/

/-- The property depends on memory, `pc` and `kwait` alone. -/
theorem State.WaitsAtKeyWait.congr {s t : State} (h : s.WaitsAtKeyWait) (hm : t.mem = s.mem) (hp : t.pc = s.pc)
    (hw : t.kwait = s.kwait) : t.WaitsAtKeyWait := by
  rw [State.WaitsAtKeyWait, hw, fetch_congr hm hp]
  exact h

/-- After the writes of an instruction no wait is on: an `FX0A` that completes ends it, and in a wait no other
instruction is at `pc`. -/
theorem Effect.not_waiting {i : Instr} {s u : State} {op : Word} (h : Effect i s u) (hs : s.WaitsAtKeyWait)
    (hf : fetch s = .ok op) (hd : decodeWord op = some i) : u.kwait = false := by
  by_cases hi : ∃ x, i = .ldVxK x
  · obtain ⟨x, rfl⟩ := hi
    obtain ⟨-, b, rfl⟩ := h
    rfl
  · rw [(h.frame.wait fun x hx => hi ⟨x, hx⟩).1, Bool.eq_false_iff]
    intro hw
    obtain ⟨op', x, hf', hd'⟩ := hs hw
    cases hf.symm.trans hf'
    exact hi ⟨x, Option.some.inj (hd.symm.trans hd')⟩

theorem step_waitsAtKeyWait {s t : State} (hs : s.WaitsAtKeyWait) (h : step s = .next t) : t.WaitsAtKeyWait := by
  obtain ⟨op, i, hf, hd, he⟩ := step_next h
  rcases exec_next he with ⟨x, rfl, ⟨-, rfl⟩ | ⟨-, -, rfl⟩⟩ | ⟨u, a, -, rfl, hu⟩
  · exact fun _ => ⟨op, x, (fetch_congr rfl rfl).trans hf, hd⟩
  · exact hs
  · intro hw
    cases (hu.not_waiting hs hf hd).symm.trans hw

/-! ### The statements -/

/-- Settles O20: of all steps only those of `FX0A` leave a wait on, and they leave memory and `pc` as they were. -/
theorem waitingMeansKeyWaitAtPc : Obligations.WaitingMeansKeyWaitAtPc :=
  ⟨nofun, fun _ _ => step_waitsAtKeyWait, fun _ hs => hs.congr rfl rfl rfl,
    fun _ _ _ hs => hs.congr (pressKey_mem _ _ _) (pressKey_pc _ _ _) (pressKey_kwait _ _ _)⟩

/-- Settles O55: the wait is a fixed point of steps, and the first edge's latch outlives any later event. -/
theorem keyWaitEndsAtTheFirstEdge : Obligations.KeyWaitEndsAtTheFirstEdge := by
  intro s op x k j p hf hd hw hp hup
  have hstep : ∀ {u : State}, u.mem = s.mem → u.pc = s.pc → step u = exec (.ldVxK x) u := fun hm hpc =>
    step_of_decode ((fetch_congr hm hpc).trans hf) hd
  have hstart : step s = .next (s.setWait true none) := (hstep rfl rfl).trans (exec_ldVxK_start x hw)
  have hhold : step (s.setWait true none) = .next (s.setWait true none) :=
    (hstep (u := s.setWait true none) rfl rfl).trans (exec_ldVxK_hold x rfl rfl)
  have hlatch : (pressKey j p (pressKey k true (s.setWait true none))).klatch = some k :=
    pressKey_klatch_of_latched j p (pressKey_klatch_of_edge rfl rfl hup)
  refine ⟨_, hstart, rfl, run_of_fixed hhold, ?_⟩
  obtain ⟨t, ht, hx, hwait, -, hpc, -⟩ := exec_ldVxK_complete x (by simp) hlatch (by simpa using hp)
  exact ⟨t, (hstep (by simp) (by simp)).trans ht, hx, by simpa using hpc, hwait⟩

/-- Settles O38: the two are opposite skips on the key that `Vx` names. -/
theorem skipOnKey : Obligations.SkipOnKey := by
  refine ⟨decodesRow_of_mem (r := ⟨.SKP, 0xE09E, 0xF0FF⟩) (by decide) fun _ => rfl,
    decodesRow_of_mem (r := ⟨.SKNP, 0xE0A1, 0xF0FF⟩) (by decide) fun _ => rfl,
    fun s x h => ⟨exec_fault_iff.2 ⟨.inl h, rfl⟩, exec_fault_iff.2 ⟨.inl h, rfl⟩⟩,
    fun s x k i hk h => ?_, fun s x k i hk h => ?_⟩
  · exact pc_only_or_fault_of_eq_jumpTo ((exec_keySkip hk h).trans (skipIf_true s))
  · exact pc_only_or_fault_of_eq_jumpTo ((exec_keySkip hk h).trans (skipIf_false s))

/-- Settles O53: each writes one register or one timer. -/
theorem readAndSetTimers : Obligations.ReadAndSetTimers := by
  refine ⟨decodesRow_of_mem (r := ⟨.LD_VX_DT, 0xF007, 0xF0FF⟩) (by decide) fun _ => rfl,
    decodesRow_of_mem (r := ⟨.LD_DT_VX, 0xF015, 0xF0FF⟩) (by decide) fun _ => rfl,
    decodesRow_of_mem (r := ⟨.LD_ST_VX, 0xF018, 0xF0FF⟩) (by decide) fun _ => rfl,
    fun s x hp => ⟨next_of_eq_advance_setReg rfl hp, ?_, ?_⟩, fun s x hp i hi => ?_⟩
  · exact ⟨_, advance_ok (s := s.setDT (s.reg x)) hp, rfl, toNat_ofNat_of_le hp, rfl⟩
  · exact ⟨_, advance_ok (s := s.setST (s.reg x)) hp, rfl, toNat_ofNat_of_le hp, rfl, soundActive_iff⟩
  · simp only [List.mem_cons, List.not_mem_nil, or_false] at hi
    obtain rfl | rfl | rfl := hi <;> exact exec_fault_iff.2 ⟨hp, rfl⟩

/-- Settles O54: the three cases of the wait, and the room that completing it needs. -/
theorem keyWait : Obligations.KeyWait :=
  ⟨decodesRow_of_mem (r := ⟨.LD_VX_K, 0xF00A, 0xF0FF⟩) (by decide) fun _ => rfl, fun _ => exec_ldVxK_start,
    fun _ => exec_ldVxK_hold, fun _ x _ => exec_ldVxK_complete x,
    fun _ x _ hw hl hp => (exec_ldVxK_latched x hw hl).trans (advance_error hp)⟩

end Sys2Proof.Machine
end

section
/-! The statements of 60_exceptions.md: which step raises which error (R108, R109, R112), what ticks and key events leave
of an error (R114), the end of a run (R127), and the host's operations beside the step (R119, R120, R121). The errors are
cases of `step_fault_iff`. -/

namespace Sys2Proof.Machine

/-! ### No step lacks a meaning -/

/-- A checked operation lacks no meaning, so only what comes after it could. -/
theorem orRaise_ne_refused {α : Type} {r : Except Fault α} {k : α → Result} {q : Refusal}
    (h : ∀ a, k a ≠ .refused q) : orRaise r k ≠ .refused q := by
  cases r with
  | ok a => exact h a
  | error e => exact nofun

theorem exec_ne_refused (i : Instr) (s : State) (q : Refusal) : exec i s ≠ .refused q := by
  cases i
  case ret | drw | skp | sknp | ldBVx => exact orRaise_ne_refused fun _ => jumpTo_refused
  case ldMemVx | ldVxMem => exact orRaise_ne_refused fun _ => orRaise_ne_refused fun _ => jumpTo_refused
  case call =>
    refine orRaise_ne_refused fun _ => ?_
    split
    · exact nofun
    · exact jumpTo_refused
  case ldVxK x =>
    cases hw : s.kwait with
    | false => rw [exec_ldVxK_start x hw]; exact nofun
    | true =>
      cases hl : s.klatch with
      | none => rw [exec_ldVxK_hold x hw hl]; exact nofun
      | some k => rw [exec_ldVxK_latched x hw hl]; exact jumpTo_refused
  all_goals exact jumpTo_refused

theorem step_ne_refused (s : State) (q : Refusal) : step s ≠ .refused q := by
  refine orRaise_ne_refused fun op => ?_
  split
  · exact exec_ne_refused _ s q
  · exact nofun

/-! ### Which error an instruction raises -/

/-- An instruction raises `InvalidOperand`, or is a call with a full stack or a return with an empty one (R109). -/
theorem Fails.kind {i : Instr} {s : State} {e : Fault} (h : Fails i s e) :
    e = .invalidOperand ∨ (∃ nnn, i = .call nnn ∧ stackDepth ≤ s.stack.length ∧ e = .stackOverflow) ∨
      i = .ret ∧ s.stack = [] ∧ e = .stackUnderflow := by
  cases i
  case jp => exact h.elim
  case ret =>
    rcases h with h | ⟨-, he⟩
    · exact .inr (.inr ⟨rfl, h⟩)
    · exact .inl he
  case call nnn =>
    rcases h with h | ⟨-, he⟩
    · exact .inr (.inl ⟨nnn, rfl, h⟩)
    · exact .inl he
  all_goals exact .inl h.2

/-- A step raises `InvalidOperand`, or meets an illegal word, a call with a full stack or a return with an empty one. -/
theorem step_fault_kind {s : State} {e : Fault} (h : step s = .fault e) :
    e = .invalidOperand ∨ (∃ op, fetch s = .ok op ∧ decodeWord op = none) ∧ e = .unimplementedOpcode ∨
      (∃ op nnn, fetch s = .ok op ∧ decodeWord op = some (.call nnn) ∧ stackDepth ≤ s.stack.length) ∧
        e = .stackOverflow ∨
      (∃ op, fetch s = .ok op ∧ decodeWord op = some .ret ∧ s.stack = []) ∧ e = .stackUnderflow := by
  rcases step_fault_iff.1 h with ⟨-, he⟩ | h | ⟨op, i, hf, hd, hi⟩
  · exact .inl he
  · exact .inr (.inl h)
  · rcases hi.kind with he | ⟨nnn, rfl, hs, he⟩ | ⟨rfl, hs, he⟩
    · exact .inl he
    · exact .inr (.inr (.inl ⟨⟨op, nnn, hf, hd, hs⟩, he⟩))
    · exact .inr (.inr (.inr ⟨⟨op, hf, hd, hs⟩, he⟩))

/-! ### What ticks and key events leave of an error (R114) -/

/-- A state that fetches the same word, and whose instruction fails the same, fails the same. -/
theorem step_fault_of_fails {s t : State} {e : Fault} (hm : t.mem = s.mem) (hp : t.pc = s.pc)
    (hF : ∀ i, Fails i s e → Fails i t e) (h : step s = .fault e) : step t = .fault e := by
  rw [step_fault_iff, fetch_congr hm hp, hp]
  exact (step_fault_iff.1 h).imp_right (.imp_right fun ⟨op, i, hf, hd, hi⟩ => ⟨op, i, hf, hd, hF i hi⟩)

/-- No condition of an error reads a timer. -/
theorem fails_tickTimers {i : Instr} {s : State} {e : Fault} : Fails i (tickTimers s) e ↔ Fails i s e := by
  cases i <;> exact Iff.rfl

@[simp] theorem jumpOffset_pressKey (nnn : Addr) (k : Key) (p : Bool) (s : State) :
    jumpOffset nnn (pressKey k p s) = jumpOffset nnn s := by
  simp only [jumpOffset, jumpOffsetReg, pressKey_cfg, pressKey_reg]

/-- With room for a skip, a key skip fails only on its key number, and a wait completes: no error reads a key or the
latch. -/
theorem fails_pressKey {i : Instr} {s : State} {e : Fault} (k : Key) (p : Bool) (hp : s.pc.toNat + 4 ≤ addrMax)
    (h : Fails i s e) : Fails i (pressKey k p s) e := by
  cases i
  case jp => exact h
  case skp x | sknp x =>
    obtain ⟨hx | ⟨j, -, hj⟩, he⟩ := h
    · exact ⟨.inl (by rwa [pressKey_reg]), he⟩
    · split at hj <;> omega
  case ldVxK =>
    obtain ⟨⟨-, -, hroom⟩, -⟩ := h
    omega
  all_goals simpa only [Fails, pressKey_pc, pressKey_I, pressKey_stack, pressKey_reg, jumpOffset_pressKey] using h

/-- The invariants hold with any word placed at `pc`. -/
theorem placeWord_inv {s : State} (op : Word) (hs : s.Inv) : (placeWord op s).Inv := by
  unfold placeWord
  split
  · next hp =>
    exact ⟨hs.pcInRange, hs.depthBound, hs.entriesBound, hs.latchInWait,
      Memory.wf_writeList (Nat.succ_le_succ hp) hs.memCanonical⟩
  · exact hs

/-- `E09E` at `0xFFC` with key 0 down: a key skip that has no room for its skip (log 6). -/
def keySkipAtEdge : State := placeWord 0xE09E ((State.reset.setPc 0xFFC).setKey 0 true)

theorem keySkipAtEdge_inv : keySkipAtEdge.Inv :=
  placeWord_inv _ ⟨by decide, Nat.zero_le _, nofun, fun _ => rfl, rfl⟩

theorem step_keySkipAtEdge : step keySkipAtEdge = .fault .invalidOperand := rfl

theorem step_keySkipAtEdge_released :
    step (pressKey 0 false keySkipAtEdge) = .next ((pressKey 0 false keySkipAtEdge).setPc 0xFFE) := rfl

/-! ### The jump to itself (R127) -/

/-- Only a `pc` in range is a 12-bit target. -/
theorem toNat_target_eq_pc_iff {nnn : Addr} {s : State} :
    nnn.toNat = s.pc.toNat ↔ nnn = s.pc.setWidth 12 ∧ s.pc.toNat ≤ addrMax := by
  have hn := nnn.isLt
  rw [← BitVec.toNat_inj, BitVec.toNat_setWidth]
  simp only [addrMax]
  omega

/-- A jump to its own address changes nothing. -/
theorem step_of_jump_to_self {s : State} {op : Word} {nnn : Addr} (hf : fetch s = .ok op)
    (hd : decodeWord op = some (.jp nnn)) (hn : nnn.toNat = s.pc.toNat) : step s = .next s := by
  rw [step_of_decode hf hd, execJp_ok, hn, BitVec.ofNat_toNat, BitVec.setWidth_eq]
  rfl

theorem atJumpToSelf_iff {s : State} : atJumpToSelf s = true ↔
    ∃ op nnn, fetch s = .ok op ∧ decodeWord op = some (.jp nnn) ∧ nnn.toNat = s.pc.toNat := by
  unfold atJumpToSelf
  cases fetch s <;> simp [toNat_target_eq_pc_iff]

/-- R127 (b): the run has ended so exactly at a `1NNN` whose target is its own address. -/
theorem runEnd?_eq_jumpToSelf_iff {s : State} : runEnd? s = some .jumpToSelf ↔
    ∃ op nnn, fetch s = .ok op ∧ decodeWord op = some (.jp nnn) ∧ nnn.toNat = s.pc.toNat := by
  constructor
  · intro h
    unfold runEnd? at h
    split at h
    · cases h
    · split at h
      · next hself => exact atJumpToSelf_iff.1 hself
      · cases h
  · rintro ⟨op, nnn, hf, hd, hn⟩
    rw [runEnd?, step_of_jump_to_self hf hd hn, atJumpToSelf_iff.2 ⟨op, nnn, hf, hd, hn⟩]
    rfl

/-! ### The statements -/

/-- Settles O11: every error of a step is one of its kinds' own cases, and the cases of the stack are checked first. -/
theorem errorKindsAndTheirPriority : Obligations.ErrorKindsAndTheirPriority := by
  refine ⟨step_ne_refused, fun s h => ?_, fun s => ⟨fun h => ?_, fun h => ?_⟩,
    fun s => ⟨fun h => ?_, fun ⟨op, nnn, hf, hd, hs⟩ => ?_⟩, fun s => ⟨fun h => ?_, fun ⟨op, hf, hd, hs⟩ => ?_⟩⟩
  · simpa using step_fault_kind h
  · simpa using step_fault_kind h
  · exact step_fault_iff.2 (.inr (.inl ⟨h, rfl⟩))
  · simpa using step_fault_kind h
  · exact step_fault_iff.2 (.inr (.inr ⟨op, _, hf, hd, .inl ⟨hs, rfl⟩⟩))
  · simpa using step_fault_kind h
  · exact step_fault_iff.2 (.inr (.inr ⟨op, _, hf, hd, .inl ⟨hs, rfl⟩⟩))

/-- Settles O13: a tick leaves the word fetched and every condition of an error. -/
theorem ticksNeverChangeAnError : Obligations.TicksNeverChangeAnError := fun _ _ =>
  ⟨step_fault_of_fails rfl rfl fun _ => fails_tickTimers.2, step_fault_of_fails rfl rfl fun _ => fails_tickTimers.1⟩

/-- Settles O14: with room for a skip no condition of an error reads a key; without it, a key skip does. -/
theorem keyEventsAndErrors : Obligations.KeyEventsAndErrors :=
  ⟨fun _ _ k p hp => step_fault_of_fails (pressKey_mem _ _ _) (pressKey_pc _ _ _) fun _ => fails_pressKey k p hp,
    keySkipAtEdge, _, 0, false, keySkipAtEdge_inv, step_keySkipAtEdge, step_keySkipAtEdge_released⟩

/-- Settles O16: the step at a jump to itself is a fixed point. -/
theorem jumpToSelfIsAFixedPoint : Obligations.JumpToSelfIsAFixedPoint := by
  refine ⟨fun s h => ?_, fun s op nnn hf hd hn => runEnd?_eq_jumpToSelf_iff.2 ⟨op, nnn, hf, hd, hn⟩⟩
  obtain ⟨op, nnn, hf, hd, hn⟩ := runEnd?_eq_jumpToSelf_iff.1 h
  exact run_of_fixed (step_of_jump_to_self hf hd hn)

/-- Settles O58: each timer is decremented, and no other field is written. -/
theorem timerTick : Obligations.TimerTick := fun s => ⟨decrement_toNat s.DT, decrement_toNat s.ST, rfl⟩

/-- Settles O59: a key number in range is a key event, and any other has no transition. (`setKey` is the model's
function.) -/
theorem setKey_holds : Obligations.SetKey := by
  refine ⟨fun s k p => ⟨pressKey k p s, dif_pos k.isLt, ?_, fun j hj => ?_, fun h => ?_, fun h => ?_, ?_⟩,
    fun s k p hk => dif_neg (Nat.not_lt.2 hk)⟩
  · rw [pressKey_keyDown, if_pos rfl]
  · rw [pressKey_keyDown, if_neg hj]
  · obtain ⟨rfl, hup, hw, hl⟩ := h
    exact pressKey_klatch_of_edge hw hl hup
  · rw [pressKey_klatch, if_neg]
    simpa [and_assoc] using h
  · rw [pressKey_eq]
    rfl

/-- Settles O60: both observations read the core and return the session they were given. -/
theorem observationsChangeNothing : Obligations.ObservationsChangeNothing := by
  intro c
  have hsound : transact .soundActive c = some (.sound (decide (c.core.ST.toNat > 0)), c) := rfl
  refine ⟨rfl, fun hon => ?_, fun hoff => ?_⟩
  · rw [hsound, decide_eq_true hon]
  · rw [hsound, hoff]
    rfl

end Sys2Proof.Machine
end

section
/-! The statement of 70_reset_and_hazards.md on `load`: an image that fits is a list written from `0x200` on (R131), a
larger one is refused (R132), and a second or a late `load` has no transition. -/

namespace Sys2Proof.Machine

/-! ### The two cases of `load` -/

theorem load_of_fits {p : List Byte} {s : State} (h : p.length ≤ maxImage) :
    load p s = .ok (s.setMem (s.mem.writeList progBase p)) :=
  if_neg (Nat.not_lt.2 h)

theorem load_of_too_large {p : List Byte} {s : State} (h : maxImage < p.length) : load p s = .error .imageTooLarge :=
  if_pos h

/-- A failing `load` leaves the session as it was (log 5). -/
theorem transact_load_of_error {p : List Byte} {s : State} {e : Fault} (h : load p s = .error e) :
    transact (.load p) ⟨s, .constructed⟩ = some (.loadFailed e, ⟨s, .constructed⟩) := by
  simp only [transact, h]

/-- An image that fits ends at `0xFFF` or below. -/
theorem image_end_le {p : List Byte} (h : p.length ≤ maxImage) : progBase + p.length ≤ addrMax + 1 :=
  Nat.add_le_add_left h progBase

/-! ### The statement -/

/-- Settles O57: an image that fits is written as a list from `0x200` on, and one above 3584 bytes is refused. -/
theorem loadImage : Obligations.LoadImage := by
  refine ⟨fun s p hm hp => ⟨_, load_of_fits hp, rfl, fun i hi => ?_, fun a ha => ?_⟩, fun s p hp => ?_,
    fun _ _ => ⟨rfl, rfl⟩⟩
  · exact Memory.read_writeList_inside hm (image_end_le hp) hi
  · exact Memory.read_writeList_outside ha
  · have herr : load p s = .error .imageTooLarge := load_of_too_large hp
    exact ⟨herr, transact_load_of_error herr⟩

end Sys2Proof.Machine
end
